-- ==== Sys2Proof/Word.lean ====
section
/-!
DEFINITION. The widths of `spec/00_scope.md` rule R2: state words, beats and command words are 64 bits, the ARG field
and 32-bit results are 32 bits, a byte of the byte stream is 8 bits.
-/
namespace Sys2Proof

/-- A `u64`: a state word, a beat of either channel, a command word or a raw draw (R2, R20). -/
abbrev Word := BitVec 64

/-- The ARG field of a command word, the LEN field of a header, a 32-bit result (R2, R33, R38). -/
abbrev Word32 := BitVec 32

/-- One element of the byte buffer of NEXT_BYTES (R23). -/
abbrev Byte := BitVec 8

end Sys2Proof
end

