-- ==== Sys2Proof/Config.lean ====
section
/-!
DEFINITION. What the spec leaves free. It fixes every size (`spec/00_scope.md` R2), and its one open parameter,
`ATTACHMENT`, is used by no rule (`spec/92_eei_decisions.md` D1), so the only entry is the unspecified words that a
reset event leaves in `s[0..3]` (`spec/10_state.md` R19).
-/
namespace Sys2Proof

/-- FREE VALUE. The `n`-th unspecified word a reset event has left in the register file (R19, R95). It has no body:
nothing can be proved of its value (assumption log 3). -/
opaque Config.freeWord : Nat → Word

end Sys2Proof
end

