-- ==== Sys2Proof/Syntax.lean ====
section
/-!
DEFINITION. The nine commands of `spec/30_encoding.md` rule R35 as syntax, each with the operands its frame carries.
-/
namespace Sys2Proof

/-- One command frame, decoded. One constructor per row of the opcode table (R35). -/
inductive Instr where
  /-- SEED: the four payload beats `P[0..3]` (R52). -/
  | seed (w0 w1 w2 w3 : Word)
  /-- SEEDV: the payload `P[0..k-1]`; the word count `k = ARG` is its length (R53). -/
  | seedv (payload : List Word)
  /-- EXPORT (R55). -/
  | exportState
  /-- NEXT_RAW (R56). -/
  | nextRaw
  /-- NEXT_I32 (R60). -/
  | nextI32
  /-- NEXT_I64 (R62). -/
  | nextI64
  /-- NEXT_F32 (R67). -/
  | nextF32
  /-- NEXT_F64 (R71). -/
  | nextF64
  /-- NEXT_BYTES with byte count `n = ARG` (R75). -/
  | nextBytes (n : Word32)
  deriving DecidableEq, Repr

/-- The name in the first column of the opcode table (R35). -/
inductive Command where
  | seed | seedv | exportState | nextRaw | nextI32 | nextI64 | nextF32 | nextF64 | nextBytes
  deriving DecidableEq, Repr

/-- A row of the opcode table: a word `W` selects the row when `W & mask = pattern` (R35). -/
structure Row where
  command : Command
  pattern : Word
  mask    : Word
  deriving DecidableEq, Repr

/-- Why the decoder refuses a frame. The first three are the three kinds of illegal word of R42; all three are
answered `ERR_ILLEGAL`. The last two name lists of beats that are no frame at all (R44); the step never decodes one. -/
inductive Reject where
  /-- `OP` is one of the 247 reserved opcodes (R42 item 1). -/
  | reservedOpcode
  /-- `RSV` is not zero (R42 item 2). -/
  | nonzeroRsv
  /-- `ARG` is not zero in a command that takes no argument (R42 item 3). -/
  | nonzeroArg
  /-- There is no command word. -/
  | noCommandWord
  /-- The number of payload beats is not `m(W)` of R34. -/
  | wrongPayloadLength
  deriving DecidableEq, Repr

end Sys2Proof
end

