-- ==== Sys2Proof/WellFormed.lean ====
section
/-!
DEFINITION. Which instructions are command frames: the payload of SEEDV must be countable in the 32-bit ARG field
(`spec/30_encoding.md` rules R34 and R37). Every other operand is well formed by its type.
-/
namespace Sys2Proof

/-- The instruction can be written as a command frame (R34, R37). -/
def Instr.wellFormed : Instr → Bool
  | .seed _ _ _ _ => true
  | .seedv payload => decide (payload.length < 2 ^ 32)
  | .exportState  => true
  | .nextRaw      => true
  | .nextI32      => true
  | .nextI64      => true
  | .nextF32      => true
  | .nextF64      => true
  | .nextBytes _  => true

end Sys2Proof
end

