-- ==== Sys2Proof/Decode.lean ====
section
/-!
DEFINITION. Decoding and encoding of command frames: the fields of the command word (`spec/30_encoding.md` R33), the
frame length (R34), the opcode table (R35) and the illegal words (R42). The encoder follows the decoder.
-/
namespace Sys2Proof

/-! ## The command word and the frame length -/

/-- `OP = W[63:56]` (R33). -/
def opOf (w : Word) : Byte := w.extractLsb' 56 8

/-- `RSV = W[55:32]` (R33). -/
def rsvOf (w : Word) : BitVec 24 := w.extractLsb' 32 24

/-- `ARG = W[31:0]` (R33). -/
def argOf (w : Word) : Word32 := w.extractLsb' 0 32

/-- `m(W)`, the number of payload beats after the command word, whether or not the word is legal (R34). -/
def payloadBeats (w : Word) : Nat :=
  if opOf w = 0x01 then 4 else if opOf w = 0x02 then (argOf w).toNat else 0

/-! ## The opcode table -/

/-- The mask of a command whose ARG must be zero: all of the word is fixed (R35). -/
def maskWhole : Word := 0xFFFFFFFFFFFFFFFF

/-- The mask of a command that takes an argument: `OP` and `RSV` are fixed (R35). -/
def maskArg : Word := 0xFFFFFFFF00000000

/-- The nine rows of the opcode table (R35). -/
def opcodeTable : List Row :=
  [ ⟨.seed,        0x0100000000000000, maskWhole⟩,
    ⟨.seedv,       0x0200000000000000, maskArg⟩,
    ⟨.exportState, 0x0300000000000000, maskWhole⟩,
    ⟨.nextRaw,     0x1000000000000000, maskWhole⟩,
    ⟨.nextI32,     0x1100000000000000, maskWhole⟩,
    ⟨.nextI64,     0x1200000000000000, maskWhole⟩,
    ⟨.nextF32,     0x1300000000000000, maskWhole⟩,
    ⟨.nextF64,     0x1400000000000000, maskWhole⟩,
    ⟨.nextBytes,   0x1500000000000000, maskArg⟩ ]

/-- The word selects the row: `W & mask = match` (R35). -/
def matchesRow (w : Word) (r : Row) : Bool := w &&& r.mask == r.pattern

/-- The command a word selects, if any (R35). -/
def commandOf (w : Word) : Option Command := (opcodeTable.find? (matchesRow w)).map Row.command

/-- Which of the three conditions of R42 a word that matches no row meets, the first of them that holds. -/
def whyIllegal (w : Word) : Reject :=
  if opcodeTable.all (fun r => opOf w != opOf r.pattern) then .reservedOpcode
  else if rsvOf w ≠ 0 then .nonzeroRsv
  else .nonzeroArg

/-! ## Decoding a frame -/

/-- The instruction of a legal command word and its payload beats (R21, R22, R37). -/
def withOperands (w : Word) (payload : List Word) : Command → Except Reject Instr
  | .seed =>
    match payload with
    | [w0, w1, w2, w3] => .ok (.seed w0 w1 w2 w3)
    | _ => .error .wrongPayloadLength
  | .seedv       => .ok (.seedv payload)
  | .exportState => .ok .exportState
  | .nextRaw     => .ok .nextRaw
  | .nextI32     => .ok .nextI32
  | .nextI64     => .ok .nextI64
  | .nextF32     => .ok .nextF32
  | .nextF64     => .ok .nextF64
  | .nextBytes   => .ok (.nextBytes (argOf w))

/-- Reads one whole frame, the command word first (R32, R34, R35, R42). Total on every list of beats. -/
def decode : List Word → Except Reject Instr
  | [] => .error .noCommandWord
  | w :: payload =>
    if payload.length = payloadBeats w then
      match commandOf w with
      | some c => withOperands w payload c
      | none => .error (whyIllegal w)
    else .error .wrongPayloadLength

/-! ## Encoding -/

/-- `W = OP ++ RSV ++ ARG` with `RSV = 0` (R33). -/
def commandWord (op : Byte) (arg : Word32) : Word := op ++ 0#24 ++ arg

/-- The command frame of an instruction, the command word first (R32 to R35). -/
def encode : Instr → List Word
  | .seed w0 w1 w2 w3 => [commandWord 0x01 0, w0, w1, w2, w3]
  | .seedv payload    => commandWord 0x02 (BitVec.ofNat 32 payload.length) :: payload
  | .exportState      => [commandWord 0x03 0]
  | .nextRaw          => [commandWord 0x10 0]
  | .nextI32          => [commandWord 0x11 0]
  | .nextI64          => [commandWord 0x12 0]
  | .nextF32          => [commandWord 0x13 0]
  | .nextF64          => [commandWord 0x14 0]
  | .nextBytes n      => [commandWord 0x15 n]

/-! ## The host's numbering of an instruction's bits -/

/-- The frame whose bits are the low `nbits` bits of `w`: bits 63..0 are the command word, bits 127..64 the first
payload beat, and so on; bits above `nbits` are zero. The frame has as many beats as its command word asks for. -/
def frameOfTableWord (nbits w : Nat) : List Word :=
  let bits := w % 2 ^ nbits
  let command := BitVec.ofNat 64 bits
  command :: (List.range (payloadBeats command)).map fun i => BitVec.ofNat 64 (bits / 2 ^ (64 * (i + 1)))

/-- What the decoder reads from the frame of `frameOfTableWord`. -/
def decodeTableWord (nbits w : Nat) : Option Instr :=
  match decode (frameOfTableWord nbits w) with
  | .ok i => some i
  | .error _ => none

end Sys2Proof
end

