-- ==== Sys2Proof/Machine/State.lean ====
section
/-!
DEFINITION. The state of the block (`spec/10_state.md` R10), its two channels (`spec/20_memory.md` R20), the response
frame (`spec/30_encoding.md` R38, R39), and the reasons a step can stop.
-/
namespace Sys2Proof.Machine

/-- The register file: the Generator State `s[0..3]` (R11). -/
@[ext]
structure GenState where
  s0 : Word
  s1 : Word
  s2 : Word
  s3 : Word
  deriving DecidableEq, Repr

/-- What the host can do to the block, in the order it does it: send a beat on the command channel (R20), or cause the
reset event (R95). -/
inductive Input where
  | beat (w : Word)
  | reset
  deriving DecidableEq, Repr

/-- The STATUS of a response (R39). -/
inductive Status where
  | ok
  | errIllegal
  | errSeedLen
  | errUnseeded
  deriving DecidableEq, Repr

/-- The KIND of a response (R39). `noData` is the spec's `NONE`. -/
inductive Kind where
  | noData
  | u64
  | i32
  | i64
  | f32
  | f64
  | bytes
  | state
  deriving DecidableEq, Repr

/-- The four arguments of `respond(STATUS, KIND, LEN, DATA)` (R38). -/
structure Response where
  status : Status
  kind   : Kind
  len    : Word32
  data   : List Word
  deriving DecidableEq, Repr

/-- The state of the block and of its channels. -/
structure State where
  /-- The state words `s[0..3]` (R11). -/
  gen    : GenState
  /-- The flag `SEEDED` (R12). -/
  seeded : Bool
  /-- The command channel: what the host has sent and the block has not yet taken, oldest first (R20, R21; log 1). -/
  input  : List Input
  /-- The response channel: every beat the block has emitted, oldest first (R20, R27; log 1). -/
  output : List Word
  /-- The model's own field: how many free words reset events have used so far (log 3, log 4). -/
  free   : Nat
  deriving DecidableEq, Repr

/-- Why the machine stops with a fault. It has no constructor: the block has no fatal, locked or halted state (R87),
and its errors are responses. No one raises a fault (assumption log 5). -/
inductive Fault where
  deriving DecidableEq, Repr

/-- Why the model has no meaning for what stands in the command channel. -/
inductive Refusal where
  /-- Raised by no arm: every command has its meaning. Safe: the machine stops where the hardware goes on. -/
  | notModelled (mnemonic : String)
  /-- Raised by `step` when a reset event stands between the beats of one frame: "not defined by this spec" (R96, U6).
  Safe: the machine stops where the hardware does something the spec does not describe (assumption log 6). -/
  | resetInsideFrame
  deriving DecidableEq, Repr

/-- The machine right after reset: `SEEDED = 0` and both channels empty (R95). The four words are the model's choice,
zero, where the spec leaves them unspecified (R19; assumption log 2, DESIGN CHOICE, unsafe); so is the counter's start
(assumption log 4, DESIGN CHOICE). -/
def State.reset : State where
  gen    := ⟨0, 0, 0, 0⟩
  seeded := false
  input  := []
  output := []
  free   := 0

end Sys2Proof.Machine
end

