-- ==== Sys2Proof/Machine/Ops.lean ====
section
/-!
DEFINITION. The named operations over the state: the 64-bit primitives (`spec/00_scope.md` R4), `Advance()`
(`spec/40_core_generator.md` R50), the response frame and its emission (`spec/30_encoding.md` R38, R39), the error
response every command shares (`spec/60_exceptions.md` R86), the reset event (`spec/70_reset_and_hazards.md` R95), and
taking a frame from the command channel (`spec/20_memory.md` R21, `spec/30_encoding.md` R34, R44).
-/
namespace Sys2Proof.Machine

/-! ## 64-bit primitives (R4) -/

/-- `(a * c) mod 2^64` (R4). -/
def mul64 (a c : Word) : Word := a * c

/-- `(a * 2^n) mod 2^64`, a logical shift (R4). -/
def shl64 (a : Word) (n : Nat) : Word := a <<< n

/-- `floor(a / 2^n)`, a logical shift (R4). -/
def shr64 (a : Word) (n : Nat) : Word := a >>> n

/-- The 64-bit circular left rotation, for `0 < n < 64` (R4). -/
def rotl64 (a : Word) (n : Nat) : Word := shl64 a n ||| shr64 a (64 - n)

/-! ## Advance (R50) -/

/-- The scrambler `rotl(x * 5, 7) * 9` (R50). -/
def scramble (x : Word) : Word := mul64 (rotl64 (mul64 x 5) 7) 9

/-- The state words after one `Advance()`, in the step form of R50: each line uses the values the lines before it have
changed. -/
def nextGen (g : GenState) : GenState :=
  let t  := shl64 g.s1 17
  let b2 := g.s2 ^^^ g.s0
  let b3 := g.s3 ^^^ g.s1
  let b1 := g.s1 ^^^ b2
  let b0 := g.s0 ^^^ b3
  let c2 := b2 ^^^ t
  let c3 := rotl64 b3 45
  ⟨b0, b1, c2, c3⟩

/-- `Advance()`: the raw draw, computed from the OLD `s[1]`, and the new state words (R50). -/
def advance (g : GenState) : Word × GenState := (scramble g.s1, nextGen g)

/-- The state words after `n` calls of `Advance()`, each seeing the state the one before left (R57). -/
def advanceBy : Nat → GenState → GenState
  | 0, g => g
  | n + 1, g => advanceBy n (advance g).2

/-! ## Responses (R38, R39) -/

/-- The STATUS codes (R39). -/
def Status.code : Status → Byte
  | .ok          => 0x00
  | .errIllegal  => 0x01
  | .errSeedLen  => 0x02
  | .errUnseeded => 0x03

/-- The KIND codes (R39). -/
def Kind.code : Kind → Byte
  | .noData => 0x00
  | .u64    => 0x01
  | .i32    => 0x02
  | .i64    => 0x03
  | .f32    => 0x04
  | .f64    => 0x05
  | .bytes  => 0x06
  | .state  => 0x07

/-- `H = STATUS ++ KIND ++ 0x0000 ++ LEN` (R38). -/
def Response.header (r : Response) : Word := r.status.code ++ r.kind.code ++ 0#16 ++ r.len

/-- The beats of a response frame: the header, then the data in index order (R38). -/
def Response.beats (r : Response) : List Word := r.header :: r.data

/-- `respond(...)`: the frame leaves on the response channel after all earlier ones (R27, R38). -/
def State.respond (s : State) (r : Response) : State := { s with output := s.output ++ r.beats }

/-- `raise Err(code)`, the block's one way to take an exception: a header-only response, and nothing else changes
(R85, R86). There is no handler to enter and nothing to return from (R87). -/
def State.raiseErr (s : State) (code : Status) : State := s.respond ⟨code, .noData, 0, []⟩

/-! ## Writing the register file -/

/-- The state words are written all four together (R11, R28). -/
def State.withGen (s : State) (g : GenState) : State := { s with gen := g }

/-! ## The reset event (R95) -/

/-- `SEEDED <- 0`; the four state words take unspecified values, here the next four free words (R19, R95; log 3). The
beats already emitted stay emitted (R20; log 1). -/
def State.resetEvent (s : State) : State :=
  { s with
    seeded := false
    gen := ⟨Config.freeWord s.free, Config.freeWord (s.free + 1), Config.freeWord (s.free + 2),
      Config.freeWord (s.free + 3)⟩
    free := s.free + 4 }

/-! ## Taking a frame from the command channel -/

/-- The command channel holds `rest` (R21). -/
def State.withInput (s : State) (rest : List Input) : State := { s with input := rest }

/-- What `takeBeats` finds. -/
inductive Taken where
  /-- The beats asked for, and what is left in the channel. -/
  | all (beats : List Word) (rest : List Input)
  /-- The channel ends first. -/
  | short
  /-- A reset event stands before the last beat. -/
  | brokenByReset
  deriving DecidableEq, Repr

/-- Takes `n` beats from the front of the command channel (R21). -/
def takeBeats : List Input → Nat → Taken
  | rest, 0 => .all [] rest
  | [], _ + 1 => .short
  | .reset :: _, _ + 1 => .brokenByReset
  | .beat w :: q, n + 1 =>
    match takeBeats q n with
    | .all beats rest => .all (w :: beats) rest
    | .short => .short
    | .brokenByReset => .brokenByReset

/-- What the block finds at the front of its command channel. -/
inductive Fetched where
  /-- No complete frame yet: the block waits (R44, R95). -/
  | wait
  /-- The reset event, at a command boundary (R96). -/
  | reset (rest : List Input)
  /-- A reset event inside a frame (R96, U6). -/
  | brokenByReset
  /-- One complete frame, the command word first, and what is left in the channel. -/
  | frame (beats : List Word) (rest : List Input)
  deriving DecidableEq, Repr

/-- The next frame: the command word `W`, then `m(W)` payload beats, whether or not the word is legal (R34). -/
def fetch : List Input → Fetched
  | [] => .wait
  | .reset :: rest => .reset rest
  | .beat w :: q =>
    match takeBeats q (payloadBeats w) with
    | .all payload rest => .frame (w :: payload) rest
    | .short => .wait
    | .brokenByReset => .brokenByReset

end Sys2Proof.Machine
end

