-- ==== Sys2Proof/Machine/Flags.lean ====
section
/-!
DEFINITION. The block's one flag, `SEEDED` (`spec/10_state.md` R12). There is no other flag to compute: no carry,
overflow, zero or sign, and no sticky floating-point flag (R16).
-/
namespace Sys2Proof.Machine

/-- `SEEDED <- 1`, which only a successful SEED or SEEDV does (R12). -/
def State.setSeeded (s : State) : State := { s with seeded := true }

/-- The check of EXPORT and of every NEXT_* command: with `SEEDED = 0` answer `ERR_UNSEEDED` and read no state word
(R83, step 4 of R41); otherwise go on with the command's effect. -/
def needSeeded (effect : State → State) (s : State) : Host.Outcome State Fault Refusal :=
  if s.seeded then .next (effect s) else .next (s.raiseErr .errUnseeded)

/-- The construction that SEED and a four-word SEEDV share: `s[i] <- P[i]`, `SEEDED <- 1`, `respond(OK, NONE, 0, [])`
(R52, R53, R54). -/
def construct (w0 w1 w2 w3 : Word) (s : State) : State :=
  ((s.withGen ⟨w0, w1, w2, w3⟩).setSeeded).respond ⟨.ok, .noData, 0, []⟩

end Sys2Proof.Machine
end

