-- ==== Sys2Proof/Machine/Operands.lean ====
section
/-!
DEFINITION. The forms a result takes: the slices of a draw (`spec/41_integer_derivers.md`), the IEEE-754 patterns
`F32Bits` and `F64Bits` (`spec/42_float_derivers.md` R66, R70), the carrying of a scalar in a data beat
(`spec/30_encoding.md` R40), and the bytes of a draw (`spec/20_memory.md` R24 to R26).
-/
namespace Sys2Proof.Machine

/-! ## Scalars -/

/-- A 32-bit result in a data beat: zero-extended, never sign-extended (R40). -/
def zext64 (v : Word32) : Word := v.setWidth 64

/-- `r[63:32]`, the 32 bits NEXT_I32 returns (R60). -/
def highHalf (r : Word) : Word32 := r.extractLsb' 32 32

/-- The `k` of NEXT_F32: the high half of the draw shifted right by 8, that is `r[63:40]` (R67). -/
def k24 (r : Word) : BitVec 24 := (highHalf r).extractLsb' 8 24

/-- The `k` of NEXT_F64: `r[63:11]` (R71). -/
def k53 (r : Word) : BitVec 53 := r.extractLsb' 11 53

/-- The binary32 pattern of `k * 2^-24` (R66); `p` is the index of the most significant 1 bit of `k`. -/
def f32Bits (k : BitVec 24) : Word32 :=
  if k = 0 then 0
  else
    let p := k.toNat.log2
    let e := 103 + p
    let f := k.toNat * 2 ^ (23 - p) % 2 ^ 23
    BitVec.ofNat 32 (e * 2 ^ 23 + f)

/-- The binary64 pattern of `k * 2^-53` (R70); `p` is the index of the most significant 1 bit of `k`. -/
def f64Bits (k : BitVec 53) : Word :=
  if k = 0 then 0
  else
    let p := k.toNat.log2
    let e := 970 + p
    let f := k.toNat * 2 ^ (52 - p) % 2 ^ 52
    BitVec.ofNat 64 (e * 2 ^ 52 + f)

/-- The effect the five single-draw commands share: one `Advance()`, and a response of one element whose data beat is
`derive` of the draw (R36, R57). -/
def drawOne (kind : Kind) (derive : Word → Word) (s : State) : State :=
  (s.withGen (advance s.gen).2).respond ⟨.ok, kind, 1, [derive (advance s.gen).1]⟩

/-! ## The byte stream -/

/-- `ceil(n / 8)`, without 32-bit overflow (R75). -/
def drawsForBytes (n : Nat) : Nat := (n + 7) / 8

/-- The low `c` bytes of a draw, the other lanes zero: `r & (2^(8c) - 1)` (R26, R75). -/
def lowBytes (c : Nat) (r : Word) : Word := r &&& BitVec.ofNat 64 (2 ^ (8 * c) - 1)

/-- The loop of R75: `q` draws in order, of which `n` bytes are still wanted; the data beats, and the state words after
the last draw. Draw `j` gives `c = min(8, n - 8j)` bytes. -/
def fillBytes : Nat → Nat → GenState → List Word × GenState
  | 0, _, g => ([], g)
  | q + 1, n, g =>
    let draw := advance g
    let later := fillBytes q (n - 8) draw.2
    (lowBytes (min 8 n) draw.1 :: later.1, later.2)

/-- The effect of NEXT_BYTES: `ceil(n/8)` draws and one response of `n` bytes (R75). -/
def drawBytes (n : Word32) (s : State) : State :=
  let filled := fillBytes (drawsForBytes n.toNat) n.toNat s.gen
  (s.withGen filled.2).respond ⟨.ok, .bytes, n, filled.1⟩

end Sys2Proof.Machine
end

