-- ==== Sys2Proof/Machine/ByteStream.lean ====
section
/-!
DEFINITION. The byte stream extractor: NEXT_BYTES (`spec/43_byte_stream.md`).
-/
namespace Sys2Proof.Machine

/-- NEXT_BYTES n: `n` bytes of `ceil(n/8)` fresh draws, little-endian; `n = 0` draws nothing but still needs `SEEDED`
(R75, R78). -/
def execNextBytes (n : Word32) (s : State) : Host.Outcome State Fault Refusal :=
  needSeeded (drawBytes n) s

end Sys2Proof.Machine
end

