-- ==== Sys2Proof/Machine/CoreGenerator.lean ====
section
/-!
DEFINITION. The core generator's commands: SEED, SEEDV, EXPORT and NEXT_RAW (`spec/40_core_generator.md`).
-/
namespace Sys2Proof.Machine

/-- SEED: the four payload words become the state verbatim (R52). -/
def execSeed (w0 w1 w2 w3 : Word) (s : State) : Host.Outcome State Fault Refusal :=
  .next (construct w0 w1 w2 w3 s)

/-- SEEDV: a payload of exactly four words constructs the generator; any other count answers `ERR_SEED_LEN` and changes
nothing (R53, R82). -/
def execSeedv (payload : List Word) (s : State) : Host.Outcome State Fault Refusal :=
  match payload with
  | [w0, w1, w2, w3] => .next (construct w0 w1 w2 w3 s)
  | _ => .next (s.raiseErr .errSeedLen)

/-- EXPORT: the four state words, `s[0]` first; nothing changes (R55). -/
def execExport (s : State) : Host.Outcome State Fault Refusal :=
  needSeeded (fun s => s.respond ⟨.ok, .state, 4, [s.gen.s0, s.gen.s1, s.gen.s2, s.gen.s3]⟩) s

/-- NEXT_RAW: the raw draw itself (R56). -/
def execNextRaw (s : State) : Host.Outcome State Fault Refusal :=
  needSeeded (drawOne .u64 fun r => r) s

end Sys2Proof.Machine
end

