-- ==== Sys2Proof/Machine/FloatDerivers.lean ====
section
/-!
DEFINITION. The float derivers: NEXT_F32 and NEXT_F64 (`spec/42_float_derivers.md`).
-/
namespace Sys2Proof.Machine

/-- NEXT_F32: the binary32 pattern of `r[63:40] * 2^-24`, zero-extended in the beat (R67). -/
def execNextF32 (s : State) : Host.Outcome State Fault Refusal :=
  needSeeded (drawOne .f32 fun r => zext64 (f32Bits (k24 r))) s

/-- NEXT_F64: the binary64 pattern of `r[63:11] * 2^-53` (R71). -/
def execNextF64 (s : State) : Host.Outcome State Fault Refusal :=
  needSeeded (drawOne .f64 fun r => f64Bits (k53 r)) s

end Sys2Proof.Machine
end

