-- ==== Sys2Proof/Machine/IntegerDerivers.lean ====
section
/-!
DEFINITION. The integer derivers: NEXT_I32 and NEXT_I64 (`spec/41_integer_derivers.md`).
-/
namespace Sys2Proof.Machine

/-- NEXT_I32: the high half of one draw, zero-extended in the beat; the low half is discarded and not kept (R60, R61). -/
def execNextI32 (s : State) : Host.Outcome State Fault Refusal :=
  needSeeded (drawOne .i32 fun r => zext64 (highHalf r)) s

/-- NEXT_I64: all 64 bits of one draw, unchanged (R62). -/
def execNextI64 (s : State) : Host.Outcome State Fault Refusal :=
  needSeeded (drawOne .i64 fun r => r) s

end Sys2Proof.Machine
end

