-- ==== Sys2Proof/Machine/Dispatch.lean ====
section
/-!
DEFINITION. One arm per command of the opcode table (`spec/30_encoding.md` R35).
-/
namespace Sys2Proof.Machine

/-- Step 5 of R41 with the checks of steps 3 and 4: what one legal command does (R3's `Execute`, less the frame). -/
def exec (i : Instr) (s : State) : Host.Outcome State Fault Refusal :=
  match i with
  | .seed w0 w1 w2 w3 => Sys2Proof.Machine.execSeed w0 w1 w2 w3 s
  | .seedv payload => Sys2Proof.Machine.execSeedv payload s
  | .exportState => Sys2Proof.Machine.execExport s
  | .nextRaw => Sys2Proof.Machine.execNextRaw s
  | .nextI32 => Sys2Proof.Machine.execNextI32 s
  | .nextI64 => Sys2Proof.Machine.execNextI64 s
  | .nextF32 => Sys2Proof.Machine.execNextF32 s
  | .nextF64 => Sys2Proof.Machine.execNextF64 s
  | .nextBytes n => Sys2Proof.Machine.execNextBytes n s

end Sys2Proof.Machine
end

