-- ==== Sys2Proof/Machine/Step.lean ====
section
/-!
DEFINITION. One step of the block: take the next frame from the command channel and run it (`spec/00_scope.md` R3,
`spec/30_encoding.md` R41), or do what the reset event does, or wait.
-/
namespace Sys2Proof.Machine

/-- One step. No complete frame: the block waits and nothing changes (R44, R95; log 7). The reset event at a command
boundary (R95). A reset event inside a frame is refused by name (R96; log 6). A complete frame: all its beats are
consumed, then an illegal word answers `ERR_ILLEGAL` (R42, R81) and a legal one is executed (R41). -/
def step (s : State) : Host.Outcome State Fault Refusal :=
  match fetch s.input with
  | .wait => .next s
  | .reset rest => .next (s.withInput rest).resetEvent
  | .brokenByReset => .refused .resetInsideFrame
  | .frame beats rest =>
    match decode beats with
    | .ok i => exec i (s.withInput rest)
    | .error _ => .next ((s.withInput rest).raiseErr .errIllegal)

/-- `s` with the frame of `frameOfTableWord` at the front of its command channel, so that the next step runs it. -/
def State.withFetchWord (s : State) (nbits w : Nat) : State :=
  s.withInput ((frameOfTableWord nbits w).map Input.beat ++ s.input)

end Sys2Proof.Machine
end

