-- ==== Sys2Proof/Safety.lean ====
section
/-!
DEFINITION. The terms in which statements about the block are made: what the spec says of a command word
(`spec/30_encoding.md` R36, R42), of a sequence of commands (`spec/00_scope.md` R3), of a legal response stream
(`spec/30_encoding.md` R38 to R40), of what a host can observe (`spec/10_state.md` R19), of a byte buffer
(`spec/20_memory.md` R24) and of the number an IEEE-754 pattern denotes (`spec/42_float_derivers.md` R66, R70).
The machine uses none of them.
-/
namespace Sys2Proof

/-! ## Command words and frames -/

/-- The three conditions under which a word is illegal, read off its fields and not off the opcode table (R42). -/
def IllegalWord (w : Word) : Bool :=
  let op := w.extractLsb' 56 8
  let rsv := w.extractLsb' 32 24
  let arg := w.extractLsb' 0 32
  !([0x01, 0x02, 0x03, 0x10, 0x11, 0x12, 0x13, 0x14, 0x15].contains op)
    || rsv != 0
    || (arg != 0 && [0x01, 0x03, 0x10, 0x11, 0x12, 0x13, 0x14].contains op)

/-- `w` and `payload` are one whole frame (R21, R34). -/
abbrev IsFrame (w : Word) (payload : List Word) : Prop := payload.length = payloadBeats w

/-- The raw draws a command makes when it executes (R36). -/
def Instr.drawCount : Instr → Nat
  | .seed _ _ _ _ => 0
  | .seedv _      => 0
  | .exportState  => 0
  | .nextRaw      => 1
  | .nextI32      => 1
  | .nextI64      => 1
  | .nextF32      => 1
  | .nextF64      => 1
  | .nextBytes n  => (n.toNat + 7) / 8

/-- The commands that need `SEEDED = 1` (R36). -/
def Instr.needsSeeded : Instr → Bool
  | .seed _ _ _ _ => false
  | .seedv _      => false
  | .exportState  => true
  | .nextRaw      => true
  | .nextI32      => true
  | .nextI64      => true
  | .nextF32      => true
  | .nextF64      => true
  | .nextBytes _  => true

/-- The commands that construct a generator: SEED, and SEEDV with exactly four words (R54). -/
def Instr.constructs : Instr → Bool
  | .seed _ _ _ _ => true
  | .seedv p      => p.length == 4
  | .exportState  => false
  | .nextRaw      => false
  | .nextI32      => false
  | .nextI64      => false
  | .nextF32      => false
  | .nextF64      => false
  | .nextBytes _  => false

/-- The draws that a list of commands makes in all (R13). -/
def totalDraws (is : List Instr) : Nat := (is.map Instr.drawCount).sum

/-! ## Numbers denoted by IEEE-754 patterns -/

/-- The number a binary32 pattern denotes, where R66 says it denotes one. -/
def binary32Value (b : Word32) : Option ℚ :=
  let e := (b.extractLsb' 23 8).toNat
  let f := (b.extractLsb' 0 23).toNat
  if b = 0 then some 0
  else if 1 ≤ e ∧ e ≤ 254 then
    some ((-1) ^ (b.extractLsb' 31 1).toNat * 2 ^ ((e : ℤ) - 127) * (1 + (f : ℚ) / 2 ^ 23))
  else none

/-- The number a binary64 pattern denotes, where R70 says it denotes one. -/
def binary64Value (b : Word) : Option ℚ :=
  let e := (b.extractLsb' 52 11).toNat
  let f := (b.extractLsb' 0 52).toNat
  if b = 0 then some 0
  else if 1 ≤ e ∧ e ≤ 2046 then
    some ((-1) ^ (b.extractLsb' 63 1).toNat * 2 ^ ((e : ℤ) - 1023) * (1 + (f : ℚ) / 2 ^ 52))
  else none

/-! ## Bytes -/

/-- The eight bytes of a word, least significant first (R24). -/
def littleEndian (w : Word) : List Byte := (List.range 8).map fun i => w.extractLsb' (8 * i) 8

/-- The byte buffer that the data beats of a BYTES response of `n` bytes carry (R26). -/
def bufferOf (n : Nat) (data : List Word) : List Byte := (data.flatMap littleEndian).take n

namespace Machine

/-- The next `n` raw draws from a register file, in order (R57). -/
def drawsFrom : Nat → GenState → List Word
  | 0, _ => []
  | n + 1, g => (advance g).1 :: drawsFrom n (advance g).2

/-- `Execute` folded over a list of commands (R3, R27). -/
def runInstrs : List Instr → State → Host.Outcome State Fault Refusal
  | [], s => .next s
  | i :: is, s =>
    match exec i s with
    | .next t => runInstrs is t
    | .fault r => .fault r
    | .refused r => .refused r

/-! ## Legal responses -/

/-- The response is one the tables of R39 and R40 allow: an error carries nothing; an OK response has the LEN, the
number of beats and the range of values of its KIND. A float beat is a pattern `F32Bits` or `F64Bits` can give. -/
def Response.legal (r : Response) : Bool :=
  match r.status, r.kind, r.data with
  | .ok, .noData, [] => r.len == 0
  | .ok, .u64, [_] => r.len == 1
  | .ok, .i32, [d] => r.len == 1 && decide (d.toNat < 2 ^ 32)
  | .ok, .i64, [_] => r.len == 1
  | .ok, .f32, [d] => r.len == 1 && (d == 0 || decide (0x33800000 ≤ d.toNat ∧ d.toNat ≤ 0x3F7FFFFF))
  | .ok, .f64, [d] => r.len == 1 && (d == 0 || decide (0x3CA0000000000000 ≤ d.toNat ∧ d.toNat ≤ 0x3FEFFFFFFFFFFFFF))
  | .ok, .bytes, data =>
    data.length == (r.len.toNat + 7) / 8 &&
      (r.len.toNat % 8 == 0 || decide ((data.getLastD 0).toNat < 2 ^ (8 * (r.len.toNat % 8))))
  | .ok, .state, [_, _, _, _] => r.len == 4
  | .errIllegal, .noData, [] => r.len == 0
  | .errSeedLen, .noData, [] => r.len == 0
  | .errUnseeded, .noData, [] => r.len == 0
  | _, _, _ => false

/-- The beats are whole legal response frames, one after another (R27, R38). -/
def LegalStream (beats : List Word) : Prop :=
  ∃ rs : List Response, (∀ r ∈ rs, r.legal = true) ∧ beats = rs.flatMap Response.beats

/-- INVARIANT. Everything on the response channel is whole legal response frames. -/
def State.Inv (s : State) : Prop := LegalStream s.output

/-! ## What a host can observe -/

/-- The state with what no host can observe blanked out: the four words while `SEEDED = 0` (R19), and the model's own
counter. -/
def State.hostView (s : State) : State :=
  { s with gen := if s.seeded then s.gen else ⟨0, 0, 0, 0⟩, free := 0 }

/-- Two outcomes a host cannot tell apart. -/
def SameToHost : Host.Outcome State Fault Refusal → Host.Outcome State Fault Refusal → Prop
  | .next s, .next t => s.hostView = t.hostView
  | .refused r, .refused r' => r = r'
  | .fault r, .fault r' => r = r'
  | .next _, _ => False
  | .refused _, _ => False
  | .fault _, _ => False

/-! ## What the commands without an operand have in common -/

/-- What R55, R56, R60, R62, R67 and R71 say alike of a command without an operand: its one-word encoding; with
`SEEDED = 0` it answers `ERR_UNSEEDED` and nothing else happens; its opcode with a nonzero RSV or ARG answers
`ERR_ILLEGAL` and nothing else happens, whatever the state. -/
def PlainCommandRule (i : Instr) (op : Byte) (word : Word) : Prop :=
  encode i = [word] ∧
  (∀ s : State, s.seeded = false →
    exec i s = .next { s with output := s.output ++ [0x0300000000000000] }) ∧
  (∀ (s : State) (w : Word) (rest : List Input), w.extractLsb' 56 8 = op →
    (w.extractLsb' 32 24 ≠ 0 ∨ w.extractLsb' 0 32 ≠ 0) → s.input = Input.beat w :: rest →
    step s = .next { s with input := rest, output := s.output ++ [0x0100000000000000] })

/-! ## Safe runs -/

/-- The one condition of the command channel that stops the machine: a reset event after the first beat of a frame and
before its last (R96). -/
def ResetInsideFrame (q : List Input) : Prop :=
  ∃ w payload rest, q = (w :: payload).map Input.beat ++ Input.reset :: rest ∧ payload.length < payloadBeats w

/-- A SAFE RUN of `k` steps: none of them stops. -/
def RunsSafely (k : Nat) (s : State) : Prop := ∃ t, core.run k s = .next t

end Machine

end Sys2Proof
end

