-- ==== Sys2Proof/Certificates/Slice0/Obligations.lean ====
section
/-!
DEFINITION. The statements for the provers. Each docstring names the rule of `spec/` it formalises; where a statement
rests on a choice of the model, its docstring names the assumption log entry.
-/
open Sys2Proof Sys2Proof.Machine

/-! ## The primitives and Advance -/

/-- R4: the 64-bit primitives. Multiplication and left shift are modulo 2^64, the right shift is the floor of the
division, rotation moves bit `i` to bit `(i + n) mod 64`, and xor, or, and work bit by bit. -/
def Obligations.PrimitivesAreModular : Prop :=
  (∀ a c : Word, (mul64 a c).toNat = a.toNat * c.toNat % 2 ^ 64) ∧
  (∀ (a : Word) (n : Nat), n < 64 → (shl64 a n).toNat = a.toNat * 2 ^ n % 2 ^ 64) ∧
  (∀ (a : Word) (n : Nat), n < 64 → (shr64 a n).toNat = a.toNat / 2 ^ n) ∧
  (∀ (a : Word) (n : Nat), 0 < n → n < 64 → rotl64 a n = shl64 a n ||| shr64 a (64 - n)) ∧
  (∀ (a : Word) (n i : Nat), 0 < n → n < 64 → i < 64 →
    (rotl64 a n).getLsbD ((i + n) % 64) = a.getLsbD i) ∧
  (∀ (a b : Word) (i : Nat), (a ^^^ b).getLsbD i = (a.getLsbD i ^^ b.getLsbD i)) ∧
  (∀ (a b : Word) (i : Nat), (a ||| b).getLsbD i = (a.getLsbD i || b.getLsbD i)) ∧
  (∀ (a b : Word) (i : Nat), (a &&& b).getLsbD i = (a.getLsbD i && b.getLsbD i))

/-- R50: `Advance()` in closed form over the OLD words, with Lean's own shift and rotation. -/
def Obligations.AdvanceHasClosedForm : Prop :=
  ∀ a0 a1 a2 a3 : Word, advance ⟨a0, a1, a2, a3⟩ =
    (((a1 * 5).rotateLeft 7) * 9,
      ⟨a0 ^^^ a1 ^^^ a3, a0 ^^^ a1 ^^^ a2, a0 ^^^ a2 ^^^ (a1 <<< 17), (a1 ^^^ a3).rotateLeft 45⟩)

/-- R51: (b) the draw depends on `s[1]` alone; (c) from the all-zero state every draw is 0 and the state stays zero for
ever, and every value every command answers is 0; (d) a draw of 0 does not mean the state is zero. -/
def Obligations.ZeroStateDrawsZerosForEver : Prop :=
  (∀ g g' : GenState, g.s1 = g'.s1 → (advance g).1 = (advance g').1) ∧
  (∀ n, advanceBy n ⟨0, 0, 0, 0⟩ = ⟨0, 0, 0, 0⟩ ∧ drawsFrom n ⟨0, 0, 0, 0⟩ = List.replicate n 0) ∧
  (∀ (i : Instr) (s : State), s.seeded = true → s.gen = ⟨0, 0, 0, 0⟩ → i.needsSeeded = true →
    ∃ h beats, exec i s = .next { s with output := s.output ++ h :: List.replicate beats 0 }) ∧
  (∃ g : GenState, g ≠ ⟨0, 0, 0, 0⟩ ∧ (advance g).1 = 0)

/-- The source's claim quoted in `10_state.md` section 2 (R14 says no rule depends on it), proved from R50: no number of
draws takes a nonzero state to the all-zero state, because the state map is injective. -/
def Obligations.NonzeroStateNeverReachesZero : Prop :=
  (∀ g g' : GenState, nextGen g = nextGen g' → g = g') ∧
  (∀ (n : Nat) (g : GenState), g ≠ ⟨0, 0, 0, 0⟩ → advanceBy n g ≠ ⟨0, 0, 0, 0⟩)

/-- `95_test_vectors.md` V2.6 and section 9 item 4: the map from `s[1]` to the draw is a bijection, with the inverse
that V2.6 gives. -/
def Obligations.DrawIsBijectionOfSecondWord : Prop :=
  (∀ x y : Word, scramble x = scramble y → x = y) ∧
  (∀ d : Word, scramble (0xcccccccccccccccd * (0x8e38e38e38e38e39 * d).rotateRight 7) = d)

/-- `95_test_vectors.md` section 9 item 3: the state map is linear over GF(2). -/
def Obligations.StateMapIsLinear : Prop :=
  ∀ a0 a1 a2 a3 b0 b1 b2 b3 : Word,
    nextGen ⟨a0 ^^^ b0, a1 ^^^ b1, a2 ^^^ b2, a3 ^^^ b3⟩ =
      let a := nextGen ⟨a0, a1, a2, a3⟩
      let b := nextGen ⟨b0, b1, b2, b3⟩
      ⟨a.s0 ^^^ b.s0, a.s1 ^^^ b.s1, a.s2 ^^^ b.s2, a.s3 ^^^ b.s3⟩

/-! ## Encoding -/

/-- R34: the frame length is a function of OP, and for OP 0x02 of ARG, computed before legality; a complete frame is
consumed whole, also when the answer is an error. -/
def Obligations.FrameLengthComesFromCommandWord : Prop :=
  (∀ w : Word, payloadBeats w =
    if w.toNat / 2 ^ 56 = 0x01 then 4 else if w.toNat / 2 ^ 56 = 0x02 then w.toNat % 2 ^ 32 else 0) ∧
  (∀ (s : State) (w : Word) (p : List Word) (rest : List Input), IsFrame w p →
    s.input = (w :: p).map Input.beat ++ rest → ∃ t, step s = .next t ∧ t.input = rest)

/-- `30_encoding.md` sections 1 to 3: decoding the frame of any well-formed instruction gives the instruction back. -/
def Obligations.DecodeInvertsEncode : Prop :=
  ∀ i : Instr, i.wellFormed = true → decode (encode i) = .ok i

/-- `30_encoding.md` sections 1 and 2: each legal frame has one meaning; what decodes to an instruction is exactly that
instruction's frame. -/
def Obligations.EncodeInvertsDecode : Prop :=
  ∀ (beats : List Word) (i : Instr), decode beats = .ok i → encode i = beats ∧ i.wellFormed = true

/-- R42 and R81: a word is illegal exactly when it matches no row of the opcode table; it answers `ERR_ILLEGAL` after its
payload is consumed, whatever the state, and changes nothing; every other frame is a command. -/
def Obligations.IllegalWordsAnswerErrIllegal : Prop :=
  (∀ w : Word, IllegalWord w = true ↔ ∀ r ∈ opcodeTable, w &&& r.mask ≠ r.pattern) ∧
  (∀ (s : State) (w : Word) (p : List Word) (rest : List Input), IllegalWord w = true → IsFrame w p →
    s.input = (w :: p).map Input.beat ++ rest →
    step s = .next { s with input := rest, output := s.output ++ [0x0100000000000000] }) ∧
  (∀ (w : Word) (p : List Word), IllegalWord w = false → IsFrame w p → ∃ i, decode (w :: p) = .ok i)

/-- R35, on words written out from its table: a few frames and the instructions they stand for. -/
def Obligations.TableWordsDecode : Prop :=
  decode [0x0100000000000000, 1, 2, 3, 4] = .ok (.seed 1 2 3 4) ∧
  decode [0x0200000000000003, 7, 8, 9] = .ok (.seedv [7, 8, 9]) ∧
  decode [0x0300000000000000] = .ok .exportState ∧
  decode [0x1100000000000000] = .ok .nextI32 ∧
  decode [0x1400000000000000] = .ok .nextF64 ∧
  decode [0x150000000000000b] = .ok (.nextBytes 11)

/-! ## The step -/

/-- `00_scope.md` section 5 and `30_encoding.md` section 6: when the beats at the front of the command channel decode to
an instruction, the step is `exec` of it with exactly those beats taken out of the channel. -/
def Obligations.StepRunsDecodedInstruction : Prop :=
  (∀ (s : State) (beats : List Word) (rest : List Input) (i : Instr), decode beats = .ok i →
    s.input = beats.map Input.beat ++ rest → step s = exec i { s with input := rest }) ∧
  (∀ (s : State) (i : Instr) (rest : List Input), i.wellFormed = true →
    s.input = (encode i).map Input.beat ++ rest → step s = exec i { s with input := rest })

/-- `30_encoding.md` section 1 (framing) and log 7: with no complete frame in the channel the block waits; waiting as a
step that changes nothing is the model's choice. -/
def Obligations.IncompleteFrameWaits : Prop :=
  (∀ s : State, s.input = [] → step s = .next s) ∧
  (∀ (s : State) (w : Word) (p : List Word), p.length < payloadBeats w →
    s.input = (w :: p).map Input.beat → step s = .next s)

/-- `60_exceptions.md` section 3, `70_reset_and_hazards.md` sections 1 and 4, log 6 and log 7: the step never stops, but
for a reset event inside a frame, which the spec does not define and the model refuses by name (log 6). That an incomplete
frame, on which the block waits, is a step that answers a next state is the model's choice (log 7). -/
def Obligations.StepStopsOnlyAtResetInsideFrame : Prop :=
  (∀ s : State, ResetInsideFrame s.input → step s = .refused .resetInsideFrame) ∧
  (∀ s : State, ¬ ResetInsideFrame s.input → ∃ t, step s = .next t)

/-- R27, with R3's fold: over the frames of any list of well-formed commands the machine is `exec` folded over the list;
and over any list of complete frames, legal or not, it emits exactly one legal response frame per frame, in their order,
whole before the next frame is taken. The channel as a list that keeps every beat is the model's choice (log 1). -/
def Obligations.RunOverFramesIsFoldOfExec : Prop :=
  (∀ (is : List Instr) (s : State) (rest : List Input), (∀ i ∈ is, i.wellFormed = true) →
    s.input = (is.flatMap encode).map Input.beat ++ rest →
    core.run is.length s = runInstrs is { s with input := rest }) ∧
  (∀ (fs : List (Word × List Word)) (s : State) (rest : List Input), (∀ f ∈ fs, IsFrame f.1 f.2) →
    s.input = (fs.flatMap fun f => f.1 :: f.2).map Input.beat ++ rest →
    ∃ rs : List Response, rs.length = fs.length ∧ (∀ r ∈ rs, r.legal = true) ∧
      ∀ k, k ≤ fs.length → ∃ t, core.run k s = .next t ∧
        t.input = ((fs.drop k).flatMap fun f => f.1 :: f.2).map Input.beat ++ rest ∧
        t.output = s.output ++ (rs.take k).flatMap Response.beats)

/-- R38: the layout of the header, and one response frame for every complete command frame, legal or not. -/
def Obligations.EachFrameGetsOneLegalResponse : Prop :=
  (∀ r : Response, r.header.extractLsb' 56 8 = r.status.code ∧ r.header.extractLsb' 48 8 = r.kind.code ∧
    r.header.extractLsb' 32 16 = 0 ∧ r.header.extractLsb' 0 32 = r.len ∧ r.beats = r.header :: r.data) ∧
  (∀ (s : State) (w : Word) (p : List Word) (rest : List Input), IsFrame w p →
    s.input = (w :: p).map Input.beat ++ rest →
    ∃ (t : State) (r : Response), step s = .next t ∧ r.legal = true ∧ t.output = s.output ++ r.beats)

/-! ## Errors -/

/-- R86 and R85: whenever the answer to a frame is an error, it is one of the three error headers alone, and the state
words, `SEEDED` and everything else are as before. -/
def Obligations.ErrorChangesNothing : Prop :=
  ∀ (s t : State) (w : Word) (p : List Word) (rest : List Input) (h : Word), IsFrame w p →
    s.input = (w :: p).map Input.beat ++ rest → step s = .next t →
    t.output[s.output.length]? = some h → h.extractLsb' 56 8 ≠ 0 →
    t = { s with input := rest, output := s.output ++ [h] } ∧
      h ∈ [0x0100000000000000, 0x0200000000000000, (0x0300000000000000 : Word)]

/-- R84, with the order of R41: for every complete frame, the status answered. -/
def Obligations.ErrorPriority : Prop :=
  ∀ (s : State) (w : Word) (p : List Word) (rest : List Input), IsFrame w p →
    s.input = (w :: p).map Input.beat ++ rest →
    ∃ t h, step s = .next t ∧ t.output[s.output.length]? = some h ∧
      h.extractLsb' 56 8 =
        if IllegalWord w = true then 0x01
        else if w.extractLsb' 56 8 = 0x02 ∧ w.extractLsb' 0 32 ≠ 4 then 0x02
        else if w.extractLsb' 56 8 ≠ 0x01 ∧ w.extractLsb' 56 8 ≠ 0x02 ∧ s.seeded = false then 0x03
        else 0x00

/-! ## Construction, EXPORT and the flag -/

/-- R52: SEED. -/
def Obligations.SeedSetsStateVerbatim : Prop :=
  ∀ w0 w1 w2 w3 : Word,
    (∀ s : State, exec (.seed w0 w1 w2 w3) s =
      .next { s with gen := ⟨w0, w1, w2, w3⟩, seeded := true, output := s.output ++ [0x0000000000000000] }) ∧
    encode (.seed w0 w1 w2 w3) = [0x0100000000000000, w0, w1, w2, w3] ∧
    (∀ (s : State) (w : Word) (rest : List Input), w.extractLsb' 56 8 = 0x01 →
      (w.extractLsb' 32 24 ≠ 0 ∨ w.extractLsb' 0 32 ≠ 0) →
      s.input = [w, w0, w1, w2, w3].map Input.beat ++ rest →
      step s = .next { s with input := rest, output := s.output ++ [0x0100000000000000] })

/-- R53 and R82: SEEDV, with four words, with any other count, and with a nonzero RSV (checked first). -/
def Obligations.SeedvTakesExactlyFourWords : Prop :=
  (∀ (w0 w1 w2 w3 : Word) (s : State), exec (.seedv [w0, w1, w2, w3]) s =
    .next { s with gen := ⟨w0, w1, w2, w3⟩, seeded := true, output := s.output ++ [0x0000000000000000] }) ∧
  (∀ (p : List Word) (s : State), p.length ≠ 4 →
    exec (.seedv p) s = .next { s with output := s.output ++ [0x0200000000000000] }) ∧
  (∀ (p : List Word), p.length < 2 ^ 32 →
    encode (.seedv p) = BitVec.ofNat 64 (0x02 * 2 ^ 56 + p.length) :: p) ∧
  (∀ (s : State) (w : Word) (p : List Word) (rest : List Input), w.extractLsb' 56 8 = 0x02 →
    w.extractLsb' 32 24 ≠ 0 → p.length = (w.extractLsb' 0 32).toNat →
    s.input = (w :: p).map Input.beat ++ rest →
    step s = .next { s with input := rest, output := s.output ++ [0x0100000000000000] })

/-- R55: EXPORT. -/
def Obligations.ExportReturnsTheFourWords : Prop :=
  PlainCommandRule .exportState 0x03 0x0300000000000000 ∧
  (∀ s : State, s.seeded = true → exec .exportState s =
    .next { s with output := s.output ++ [0x0007000000000004, s.gen.s0, s.gen.s1, s.gen.s2, s.gen.s3] })

/-- `40_core_generator.md` section 4 (corner cases of EXPORT): SEED of an EXPORT's data restores the exact state, in
whatever state the block is by then. -/
def Obligations.SeedOfExportRestoresState : Prop :=
  ∀ s u : State, s.seeded = true →
    ∃ t w0 w1 w2 w3, exec .exportState s = .next t ∧
      t.output = s.output ++ [0x0007000000000004, w0, w1, w2, w3] ∧
      exec (.seed w0 w1 w2 w3) u = .next { u with gen := s.gen, seeded := true, output := u.output ++ [0] }

/-- R12: what sets and what clears `SEEDED`, its reset value, and what the seven commands that need it do without it.
A step sets it only by running a SEED or a four-word SEEDV, and only the reset event clears it. -/
def Obligations.SeededFlagRule : Prop :=
  State.reset.seeded = false ∧
  (∀ (i : Instr) (s t : State), exec i s = .next t → t.seeded = (s.seeded || i.constructs)) ∧
  (∀ s t : State, step s = .next t → s.seeded = false → t.seeded = true →
    ∃ beats rest i, s.input = beats.map Input.beat ++ rest ∧ decode beats = .ok i ∧ i.constructs = true) ∧
  (∀ s t : State, step s = .next t → s.seeded = true → t.seeded = false → ∃ rest, s.input = Input.reset :: rest) ∧
  (∀ (s : State) (rest : List Input), s.input = Input.reset :: rest → ∃ t, step s = .next t ∧ t.seeded = false) ∧
  (∀ (i : Instr) (s : State), i.needsSeeded = true → s.seeded = false →
    exec i s = .next { s with output := s.output ++ [0x0300000000000000] })

/-- `40_core_generator.md` sections 2 and 6 (R54 (a), R58): after a SEED the responses and the state depend on nothing
from before it. -/
def Obligations.SeedForgetsEarlierStream : Prop :=
  ∀ (w0 w1 w2 w3 : Word) (is : List Instr) (s s' : State),
    ∃ (t t' : State) (out : List Word),
      runInstrs (.seed w0 w1 w2 w3 :: is) s = .next t ∧ runInstrs (.seed w0 w1 w2 w3 :: is) s' = .next t' ∧
      t.output = s.output ++ out ∧ t'.output = s'.output ++ out ∧ t.gen = t'.gen ∧ t.seeded = t'.seeded

/-! ## The drawing commands -/

/-- R56: NEXT_RAW. -/
def Obligations.NextRawReturnsTheDraw : Prop :=
  PlainCommandRule .nextRaw 0x10 0x1000000000000000 ∧
  (∀ s : State, s.seeded = true → exec .nextRaw s =
    .next { s with
      gen := (advance s.gen).2
      output := s.output ++ [0x0001000000000001, (advance s.gen).1] })

/-- R60: NEXT_I32, and the integer that its 32 bits denote. -/
def Obligations.NextI32ReturnsTheHighHalf : Prop :=
  PlainCommandRule .nextI32 0x11 0x1100000000000000 ∧
  (∀ s : State, s.seeded = true → exec .nextI32 s =
    .next { s with
      gen := (advance s.gen).2
      output := s.output ++ [(0x0002000000000001 : Word), (advance s.gen).1 >>> 32] }) ∧
  (∀ r : Word, ((r >>> 32).setWidth 32).toInt =
    if r.getLsbD 63 = true then ((r.toNat / 2 ^ 32 : Nat) : Int) - 2 ^ 32 else ((r.toNat / 2 ^ 32 : Nat) : Int))

/-- R61: `k` successive NEXT_I32 advance the state exactly as `k` NEXT_RAW do, and the `i`-th value is the high half of
the `i`-th raw draw of the same stream. -/
def Obligations.I32StreamIsHighHalvesOfRawStream : Prop :=
  ∀ (k : Nat) (s : State), s.seeded = true →
    runInstrs (List.replicate k .nextI32) s =
      .next { s with
        gen := advanceBy k s.gen
        output := s.output ++ (drawsFrom k s.gen).flatMap fun r : Word => [(0x0002000000000001 : Word), r >>> 32] } ∧
    runInstrs (List.replicate k .nextRaw) s =
      .next { s with
        gen := advanceBy k s.gen
        output := s.output ++ (drawsFrom k s.gen).flatMap fun r => [0x0001000000000001, r] }

/-- R62: NEXT_I64, and the integer that its 64 bits denote. -/
def Obligations.NextI64ReturnsTheDraw : Prop :=
  PlainCommandRule .nextI64 0x12 0x1200000000000000 ∧
  (∀ s : State, s.seeded = true → exec .nextI64 s =
    .next { s with
      gen := (advance s.gen).2
      output := s.output ++ [0x0003000000000001, (advance s.gen).1] }) ∧
  (∀ r : Word, r.toInt = if r.getLsbD 63 = true then (r.toNat : Int) - 2 ^ 64 else (r.toNat : Int))

/-- R63, of what the commands answer: on every seeded block, NEXT_RAW and NEXT_I64 answer the draw `r` and NEXT_I32
answers the zero-extended 32 bits `v` whose signed reading is the signed reading of `r` divided by 2^32, rounded toward
minus infinity. -/
def Obligations.I32IsArithmeticHighHalfOfI64 : Prop :=
  ∀ s : State, s.seeded = true →
    ∃ (v : Word32) (r : Word) (t u w : State),
      exec .nextI32 s = .next t ∧ t.output = s.output ++ [0x0002000000000001, v.setWidth 64] ∧
      exec .nextI64 s = .next u ∧ u.output = s.output ++ [0x0003000000000001, r] ∧
      exec .nextRaw s = .next w ∧ w.output = s.output ++ [0x0001000000000001, r] ∧
      v.toInt = ⌊(r.toInt : ℚ) / 2 ^ 32⌋

/-- R66: `F32Bits(k)` is `E * 2^23 + F` of the rule, denotes `k * 2^-24`, is injective and stays in its range. -/
def Obligations.F32BitsDenotesScaledInteger : Prop :=
  f32Bits 0 = 0 ∧ f32Bits 1 = 0x33800000 ∧ f32Bits 0xFFFFFF = 0x3F7FFFFF ∧
  (∀ (k : BitVec 24) (p : Nat), 2 ^ p ≤ k.toNat → k.toNat < 2 ^ (p + 1) →
    (f32Bits k).toNat = (103 + p) * 2 ^ 23 + k.toNat * 2 ^ (23 - p) % 2 ^ 23) ∧
  (∀ k : BitVec 24, binary32Value (f32Bits k) = some ((k.toNat : ℚ) / 2 ^ 24)) ∧
  (∀ k k' : BitVec 24, f32Bits k = f32Bits k' → k = k') ∧
  (∀ k : BitVec 24, k ≠ 0 → 0x33800000 ≤ (f32Bits k).toNat ∧ (f32Bits k).toNat ≤ 0x3F7FFFFF)

/-- R70: `F64Bits(k)` is `E * 2^52 + F` of the rule, denotes `k * 2^-53`, is injective and stays in its range. -/
def Obligations.F64BitsDenotesScaledInteger : Prop :=
  f64Bits 0 = 0 ∧ f64Bits 1 = 0x3CA0000000000000 ∧ f64Bits 0x1FFFFFFFFFFFFF = 0x3FEFFFFFFFFFFFFF ∧
  (∀ (k : BitVec 53) (p : Nat), 2 ^ p ≤ k.toNat → k.toNat < 2 ^ (p + 1) →
    (f64Bits k).toNat = (970 + p) * 2 ^ 52 + k.toNat * 2 ^ (52 - p) % 2 ^ 52) ∧
  (∀ k : BitVec 53, binary64Value (f64Bits k) = some ((k.toNat : ℚ) / 2 ^ 53)) ∧
  (∀ k k' : BitVec 53, f64Bits k = f64Bits k' → k = k') ∧
  (∀ k : BitVec 53, k ≠ 0 → 0x3CA0000000000000 ≤ (f64Bits k).toNat ∧ (f64Bits k).toNat ≤ 0x3FEFFFFFFFFFFFFF)

/-- R67: NEXT_F32. -/
def Obligations.NextF32ReturnsTopBitsScaled : Prop :=
  PlainCommandRule .nextF32 0x13 0x1300000000000000 ∧
  (∀ s : State, s.seeded = true → exec .nextF32 s =
    .next { s with
      gen := (advance s.gen).2
      output := s.output ++
        [0x0004000000000001, (f32Bits ((advance s.gen).1.extractLsb' 40 24)).setWidth 64] })

/-- R68: every NEXT_F32 output lies in [0, 1) and is `k * 2^-24` for an integer `k` in [0, 2^24). -/
def Obligations.F32OutputLiesInUnitInterval : Prop :=
  ∀ s : State, s.seeded = true →
    ∃ (t : State) (pattern : Word32) (k : Nat), exec .nextF32 s = .next t ∧
      t.output = s.output ++ [0x0004000000000001, pattern.setWidth 64] ∧ k < 2 ^ 24 ∧
      k = ((advance s.gen).1.extractLsb' 40 24).toNat ∧
      binary32Value pattern = some ((k : ℚ) / 2 ^ 24) ∧ 0 ≤ (k : ℚ) / 2 ^ 24 ∧ (k : ℚ) / 2 ^ 24 < 1

/-- R71: NEXT_F64. -/
def Obligations.NextF64ReturnsTopBitsScaled : Prop :=
  PlainCommandRule .nextF64 0x14 0x1400000000000000 ∧
  (∀ s : State, s.seeded = true → exec .nextF64 s =
    .next { s with
      gen := (advance s.gen).2
      output := s.output ++ [0x0005000000000001, f64Bits ((advance s.gen).1.extractLsb' 11 53)] })

/-- R74: every NEXT_F64 output lies in [0, 1) and is `k * 2^-53` for an integer `k` in [0, 2^53); the float32 of the same
draw is the float64 truncated to a multiple of 2^-24, and not rounded to nearest. -/
def Obligations.F64OutputLiesInUnitInterval : Prop :=
  (∀ s : State, s.seeded = true →
    ∃ (t : State) (pattern : Word) (k : Nat), exec .nextF64 s = .next t ∧
      t.output = s.output ++ [0x0005000000000001, pattern] ∧ k < 2 ^ 53 ∧
      k = ((advance s.gen).1.extractLsb' 11 53).toNat ∧
      binary64Value pattern = some ((k : ℚ) / 2 ^ 53) ∧ 0 ≤ (k : ℚ) / 2 ^ 53 ∧ (k : ℚ) / 2 ^ 53 < 1) ∧
  (∀ r : Word, ∃ x y : ℚ, binary32Value (f32Bits (r.extractLsb' 40 24)) = some x ∧
    binary64Value (f64Bits (r.extractLsb' 11 53)) = some y ∧ x = (⌊y * 2 ^ 24⌋ : ℚ) / 2 ^ 24) ∧
  (∃ (r : Word) (x y : ℚ), binary32Value (f32Bits (r.extractLsb' 40 24)) = some x ∧
    binary64Value (f64Bits (r.extractLsb' 11 53)) = some y ∧ 1 / 2 ^ 25 < y - x)

/-! ## The byte stream -/

/-- R75: NEXT_BYTES n: the response, its data beats, its byte buffer, the state after, and its errors. -/
def Obligations.NextBytesReturnsLittleEndianDraws : Prop :=
  (∀ (n : Word32) (s : State), s.seeded = true →
    ∃ data : List Word,
      exec (.nextBytes n) s =
        .next { s with
          gen := advanceBy ((n.toNat + 7) / 8) s.gen
          output := s.output ++ BitVec.ofNat 64 (0x06 * 2 ^ 48 + n.toNat) :: data } ∧
      data.length = (n.toNat + 7) / 8 ∧
      (∀ j, j < (n.toNat + 7) / 8 →
        data[j]? = some ((drawsFrom ((n.toNat + 7) / 8) s.gen).getD j 0 &&&
          BitVec.ofNat 64 (2 ^ (8 * min 8 (n.toNat - 8 * j)) - 1))) ∧
      (bufferOf n.toNat data).length = n.toNat ∧
      (∀ m, m < n.toNat → (bufferOf n.toNat data)[m]? =
        some (((drawsFrom ((n.toNat + 7) / 8) s.gen).getD (m / 8) 0).extractLsb' (8 * (m % 8)) 8))) ∧
  (∀ n : Word32, encode (.nextBytes n) = [BitVec.ofNat 64 (0x15 * 2 ^ 56 + n.toNat)]) ∧
  (∀ (n : Word32) (s : State), s.seeded = false →
    exec (.nextBytes n) s = .next { s with output := s.output ++ [0x0300000000000000] }) ∧
  (∀ (s : State) (w : Word) (rest : List Input), w.extractLsb' 56 8 = 0x15 → w.extractLsb' 32 24 ≠ 0 →
    s.input = Input.beat w :: rest →
    step s = .next { s with input := rest, output := s.output ++ [0x0100000000000000] })

/-- R76: NEXT_BYTES n is `ceil(n/8)` NEXT_RAW commands: the same state afterwards, and the same bytes once each raw
result is written least significant byte first and the first `n` bytes are kept. -/
def Obligations.NextBytesIsTruncatedRawDraws : Prop :=
  ∀ (n : Word32) (s : State), s.seeded = true →
    ∃ (draws data : List Word) (g : GenState), draws.length = (n.toNat + 7) / 8 ∧
      runInstrs (List.replicate ((n.toNat + 7) / 8) .nextRaw) s =
        .next { s with gen := g, output := s.output ++ draws.flatMap fun r => [0x0001000000000001, r] } ∧
      exec (.nextBytes n) s =
        .next { s with gen := g, output := s.output ++ BitVec.ofNat 64 (0x06 * 2 ^ 48 + n.toNat) :: data } ∧
      bufferOf n.toNat data = (draws.flatMap littleEndian).take n.toNat

/-- R77: the tail of the last draw is thrown away, and the next command takes a fresh draw; a request split at a multiple
of 8 gives the same data and the same state; NEXT_BYTES 4 twice gives the low four bytes of two draws, where NEXT_BYTES 8
gives all eight bytes of one. -/
def Obligations.SplittingBytesKeepsDataAtMultiplesOfEight : Prop :=
  (∀ (n : Word32) (s : State), s.seeded = true → n.toNat % 8 ≠ 0 →
    ∃ (t u : State) (h : Word) (data : List Word),
      exec (.nextBytes n) s = .next t ∧ t.output = s.output ++ h :: data ∧ data.length = n.toNat / 8 + 1 ∧
      data[n.toNat / 8]? = some ((drawsFrom (n.toNat / 8 + 1) s.gen).getD (n.toNat / 8) 0 &&&
        BitVec.ofNat 64 (2 ^ (8 * (n.toNat % 8)) - 1)) ∧
      exec .nextRaw t = .next u ∧
      u.output = t.output ++
        [0x0001000000000001, (drawsFrom (n.toNat / 8 + 2) s.gen).getD (n.toNat / 8 + 1) 0]) ∧
  (∀ (a b : Word32) (s : State), s.seeded = true → a.toNat % 8 = 0 → a.toNat + b.toNat < 2 ^ 32 →
    ∃ (t u : State) (ha hb hc : Word) (da db : List Word),
      exec (.nextBytes a) s = .next t ∧ t.output = s.output ++ ha :: da ∧
      exec (.nextBytes b) t = .next u ∧ u.output = t.output ++ hb :: db ∧
      exec (.nextBytes (a + b)) s = .next { s with gen := u.gen, output := s.output ++ hc :: (da ++ db) }) ∧
  (∀ s : State, s.seeded = true →
    runInstrs [.nextBytes 4, .nextBytes 4] s =
      .next { s with
        gen := advanceBy 2 s.gen
        output := s.output ++
          [0x0006000000000004, (advance s.gen).1 &&& 0xFFFFFFFF,
           0x0006000000000004, (advance (advance s.gen).2).1 &&& 0xFFFFFFFF] } ∧
    exec (.nextBytes 8) s =
      .next { s with gen := (advance s.gen).2, output := s.output ++ [0x0006000000000008, (advance s.gen).1] })

/-- R78: NEXT_BYTES 0. -/
def Obligations.NextBytesZeroDrawsNothing : Prop :=
  (∀ s : State, s.seeded = true →
    exec (.nextBytes 0) s = .next { s with output := s.output ++ [0x0006000000000000] }) ∧
  (∀ s : State, s.seeded = false →
    exec (.nextBytes 0) s = .next { s with output := s.output ++ [0x0300000000000000] })

/-- R79: NEXT_BYTES 8 returns the data beat of NEXT_RAW and of NEXT_I64; with `n >= 8`, bytes 4 to 7 are the 32 bits that
NEXT_I32 would return. -/
def Obligations.NextBytesAgreesWithOtherCommands : Prop :=
  (∀ s : State, s.seeded = true →
    ∃ (r : Word) (t u v : State), exec (.nextBytes 8) s = .next t ∧ exec .nextRaw s = .next u ∧
      exec .nextI64 s = .next v ∧ t.output = s.output ++ [0x0006000000000008, r] ∧
      u.output = s.output ++ [0x0001000000000001, r] ∧ v.output = s.output ++ [0x0003000000000001, r]) ∧
  (∀ (n : Word32) (s : State), s.seeded = true → 8 ≤ n.toNat →
    ∃ (t u : State) (h v : Word) (data : List Word) (b4 b5 b6 b7 : Byte),
      exec (.nextBytes n) s = .next t ∧ t.output = s.output ++ h :: data ∧
      exec .nextI32 s = .next u ∧ u.output = s.output ++ [0x0002000000000001, v] ∧
      ((bufferOf n.toNat data).drop 4).take 4 = [b4, b5, b6, b7] ∧
      v.toNat = b4.toNat + 2 ^ 8 * b5.toNat + 2 ^ 16 * b6.toNat + 2 ^ 24 * b7.toNat)

/-! ## Whole-machine rules -/

/-- R57: one command's draws: on a seeded block, every command that does not construct calls `Advance()` exactly as often
as its word says, in sequence, whatever the state and the values drawn. -/
def Obligations.EachDrawIsOneAdvance : Prop :=
  ∀ (i : Instr) (s : State), s.seeded = true → i.constructs = false →
    ∃ t, exec i s = .next t ∧ t.seeded = true ∧ t.gen = advanceBy i.drawCount s.gen

/-- R13: after a successful seed followed by commands that made `d` draws in all, the state is `A^d` of the seed. -/
def Obligations.StateIsAdvancePowerOfSeed : Prop :=
  ∀ (w0 w1 w2 w3 : Word) (is : List Instr) (s : State), (∀ i ∈ is, i.constructs = false) →
    (∃ t, runInstrs (.seed w0 w1 w2 w3 :: is) s = .next t ∧ t.seeded = true ∧
      t.gen = advanceBy (totalDraws is) ⟨w0, w1, w2, w3⟩) ∧
    (∃ t, runInstrs (.seedv [w0, w1, w2, w3] :: is) s = .next t ∧ t.seeded = true ∧
      t.gen = advanceBy (totalDraws is) ⟨w0, w1, w2, w3⟩)

/-- `20_memory.md` sections 4 and 5 and `10_state.md` section 2, the frame of every command: it touches neither the command
channel nor the model's counter, only adds to the response channel, and changes the state words only if it constructs
or, on a seeded block, draws; EXPORT changes no word. -/
def Obligations.CommandFrame : Prop :=
  ∀ (i : Instr) (s t : State), exec i s = .next t →
    t.input = s.input ∧ t.free = s.free ∧ (∃ more, t.output = s.output ++ more) ∧
    (i.constructs = false → t.seeded = s.seeded) ∧
    (i.constructs = false → (s.seeded = false ∨ i.drawCount = 0) → t.gen = s.gen)

/-- R19: `SEEDED = 0` after reset and after the reset event; the words are unobservable until a seed: two runs of any
length from states that differ only in the words of an unseeded block cannot be told apart. -/
def Obligations.UnseededWordsAreUnobservable : Prop :=
  State.reset.seeded = false ∧
  (∀ (s : State) (rest : List Input), s.input = Input.reset :: rest → ∃ t, step s = .next t ∧ t.seeded = false) ∧
  (∀ (k : Nat) (s t : State), s.hostView = t.hostView → SameToHost (core.run k s) (core.run k t))

/-- `70_reset_and_hazards.md` section 1: the state right after reset, and the reset event at a command boundary. That the
beats already emitted stay in the response channel is the model's choice (log 1). -/
def Obligations.ResetLeavesUnseededAndEmpty : Prop :=
  State.reset.seeded = false ∧ State.reset.input = [] ∧ State.reset.output = [] ∧
  (∀ (s : State) (rest : List Input), s.input = Input.reset :: rest →
    ∃ t, step s = .next t ∧ t.seeded = false ∧ t.input = rest ∧ t.output = s.output)

/-- `30_encoding.md` section 4, `42_float_derivers.md` sections 1 to 3 (the range of a float beat) and `20_memory.md`
section 3 (the unused lanes of a byte beat are zero): an invariant of every step. The response channel holds whole legal
response frames and nothing else; no status or kind code outside the tables, no float beat that is a NaN, infinite,
subnormal, negative or 1.0 is ever emitted. That the channel keeps every beat emitted is the model's choice (log 1). -/
def Obligations.ResponseStreamStaysLegal : Prop :=
  ∀ s t : State, s.Inv → step s = .next t → t.Inv

/-- `70_reset_and_hazards.md` section 1: the response channel is empty at reset, so the invariant above holds there. The
channel as a list of the beats emitted is the model's choice (log 1). -/
def Obligations.ResponseStreamLegalAtReset : Prop := State.reset.Inv
end

