-- ==== Sys2Proof/Laws/Decode.lean ====
section
/-!
SUPPORT. The fields of a command word: the fields of an assembled word, and that a word is its fields put together
(`spec/30_encoding.md` R33).
-/
namespace Sys2Proof

/-- The bits of an assembled command word (R33). -/
theorem getLsbD_commandWord (op : Byte) (arg : Word32) (i : Nat) :
    (commandWord op arg).getLsbD i =
      if i < 32 then arg.getLsbD i else if i < 56 then false else op.getLsbD (i - 56) := by
  refine (BitVec.getLsbD_append (x := op ++ 0#24) (y := arg) (i := i)).trans ?_
  by_cases h : i < 32
  · simp [h]
  · rw [if_neg h, if_neg h, BitVec.getLsbD_append]
    by_cases h' : i < 56
    · rw [if_pos (by omega), if_pos h']; simp
    · rw [if_neg (by omega), if_neg h', Nat.sub_sub]

@[simp] theorem opOf_commandWord (op : Byte) (arg : Word32) : opOf (commandWord op arg) = op := by
  apply BitVec.eq_of_getLsbD_eq
  intro i hi
  simp only [opOf, BitVec.getLsbD_extractLsb', getLsbD_commandWord]
  rw [if_neg (by omega), if_neg (by omega)]
  simp [hi]

@[simp] theorem rsvOf_commandWord (op : Byte) (arg : Word32) : rsvOf (commandWord op arg) = 0 := by
  apply BitVec.eq_of_getLsbD_eq
  intro i hi
  simp only [rsvOf, BitVec.getLsbD_extractLsb', getLsbD_commandWord]
  rw [if_neg (by omega), if_pos (by omega)]
  simp

@[simp] theorem argOf_commandWord (op : Byte) (arg : Word32) : argOf (commandWord op arg) = arg := by
  apply BitVec.eq_of_getLsbD_eq
  intro i hi
  simp only [argOf, BitVec.getLsbD_extractLsb', getLsbD_commandWord]
  rw [if_pos (by omega)]
  simp [hi]

/-- A word with `RSV = 0` is its opcode and argument put together (R33). -/
theorem eq_commandWord {w : Word} (h : rsvOf w = 0) : w = commandWord (opOf w) (argOf w) := by
  apply BitVec.eq_of_getLsbD_eq
  intro i hi
  rw [getLsbD_commandWord]
  by_cases h1 : i < 32
  · simp [argOf, h1]
  · by_cases h2 : i < 56
    · have := congrArg (fun v => v.getLsbD (i - 32)) h
      simp only [rsvOf, BitVec.getLsbD_extractLsb'] at this
      rw [show 32 + (i - 32) = i by omega, decide_eq_true (by omega : i - 32 < 24)] at this
      simpa [h1, h2] using this
    · simp only [opOf, BitVec.getLsbD_extractLsb', h1, h2, if_false]
      rw [show 56 + (i - 56) = i by omega, decide_eq_true (by omega : i - 56 < 8)]
      simp

/-- The frame length of a word with a known opcode (R34). -/
theorem payloadBeats_commandWord (op : Byte) (arg : Word32) :
    payloadBeats (commandWord op arg) = if op = 0x01 then 4 else if op = 0x02 then arg.toNat else 0 := by
  simp only [payloadBeats, opOf_commandWord, argOf_commandWord]

/-! ## The opcode table, read by fields -/

/-- The mask of a command with an argument keeps OP and RSV. -/
theorem and_maskArg (w : Word) : w &&& maskArg = commandWord (opOf w) 0 ↔ rsvOf w = 0 := by
  constructor
  · intro h
    apply BitVec.eq_of_getLsbD_eq
    intro i hi
    have := congrArg (fun v => v.getLsbD (32 + i)) h
    simp only [BitVec.getLsbD_and, getLsbD_commandWord] at this
    have hm : maskArg.getLsbD (32+i) = true := by
      interval_cases i <;> decide
    rw [hm] at this
    simp only [rsvOf, BitVec.getLsbD_extractLsb', hi]
    have h56 : 32 + i < 56 := by omega
    simpa [h56] using this
  · intro h
    apply BitVec.eq_of_getLsbD_eq
    intro i hi
    conv_lhs => rw [eq_commandWord h]
    simp only [BitVec.getLsbD_and, getLsbD_commandWord]
    by_cases h1 : i < 32
    · have hm : maskArg.getLsbD i = false := by interval_cases i <;> decide
      simp [h1, hm]
    · have hm : maskArg.getLsbD i = true := by
        have : 32 ≤ i := by omega
        interval_cases i <;> decide
      simp [h1, hm]

/-- A word matches a row with an argument when its OP is the row's and its RSV is zero (R35). -/
theorem and_maskArg_eq (w : Word) (op : Byte) :
    w &&& maskArg = commandWord op 0 ↔ (opOf w = op ∧ rsvOf w = 0) := by
  constructor
  · intro h
    have hop : opOf w = op := by
      have := congrArg opOf h
      rw [opOf_commandWord] at this
      rw [← this]
      apply BitVec.eq_of_getLsbD_eq
      intro i hi
      simp only [opOf, BitVec.getLsbD_extractLsb', BitVec.getLsbD_and]
      have hm : maskArg.getLsbD (56+i) = true := by interval_cases i <;> decide
      simp [hm]
    subst hop
    exact ⟨rfl, (and_maskArg w).mp h⟩
  · rintro ⟨rfl, h⟩
    exact (and_maskArg w).mpr h

/-- A word matches a row without an argument when its OP is the row's and its RSV and ARG are zero (R35). -/
theorem and_maskWhole_eq (w : Word) (op : Byte) :
    w &&& maskWhole = commandWord op 0 ↔ (opOf w = op ∧ rsvOf w = 0 ∧ argOf w = 0) := by
  have : w &&& maskWhole = w := by
    rw [show maskWhole = BitVec.allOnes 64 by decide, BitVec.and_allOnes]
  rw [this]
  constructor
  · rintro rfl; simp
  · rintro ⟨h1, h2, h3⟩
    rw [eq_commandWord h2, h1, h3]

/-- The patterns of the table are command words with a zero argument. -/
theorem opcodeTable_eq : opcodeTable =
    [ ⟨.seed,        commandWord 0x01 0, maskWhole⟩,
      ⟨.seedv,       commandWord 0x02 0, maskArg⟩,
      ⟨.exportState, commandWord 0x03 0, maskWhole⟩,
      ⟨.nextRaw,     commandWord 0x10 0, maskWhole⟩,
      ⟨.nextI32,     commandWord 0x11 0, maskWhole⟩,
      ⟨.nextI64,     commandWord 0x12 0, maskWhole⟩,
      ⟨.nextF32,     commandWord 0x13 0, maskWhole⟩,
      ⟨.nextF64,     commandWord 0x14 0, maskWhole⟩,
      ⟨.nextBytes,   commandWord 0x15 0, maskArg⟩ ] := by decide

/-- The command a word selects, by the fields of the word (R35). -/
theorem commandOf_eq_fields (w : Word) : commandOf w =
    if rsvOf w = 0 then
      if opOf w = 2 then some .seedv else if opOf w = 0x15 then some .nextBytes
      else if argOf w = 0 then
        if opOf w = 1 then some .seed else if opOf w = 3 then some .exportState
        else if opOf w = 0x10 then some .nextRaw else if opOf w = 0x11 then some .nextI32
        else if opOf w = 0x12 then some .nextI64 else if opOf w = 0x13 then some .nextF32
        else if opOf w = 0x14 then some .nextF64 else none
      else none
    else none := by
  unfold commandOf
  rw [opcodeTable_eq]
  simp only [List.find?, matchesRow, beq_eq_decide, and_maskArg_eq, and_maskWhole_eq]
  generalize opOf w = op
  generalize rsvOf w = rsv
  generalize argOf w = arg
  by_cases h1 : rsv = 0 <;> by_cases h2 : arg = 0 <;>
    simp only [h1, h2, and_true, and_false, decide_false, if_true, if_false, Option.map]
  · repeat' split
    all_goals simp_all
    all_goals (subst_vars; rfl)
  · repeat' split
    all_goals simp_all
    all_goals (subst_vars; rfl)

end Sys2Proof
end

