-- ==== Sys2Proof/Laws/State.lean ====
section
/-!
SUPPORT. One lemma per field per update of the state, each true by unfolding.
-/
namespace Sys2Proof.Machine

variable (s : State)

/-! ## respond -/

@[simp] theorem State.respond_gen (r : Response) : (s.respond r).gen = s.gen := rfl
@[simp] theorem State.respond_seeded (r : Response) : (s.respond r).seeded = s.seeded := rfl
@[simp] theorem State.respond_input (r : Response) : (s.respond r).input = s.input := rfl
@[simp] theorem State.respond_output (r : Response) : (s.respond r).output = s.output ++ r.beats := rfl
@[simp] theorem State.respond_free (r : Response) : (s.respond r).free = s.free := rfl

/-! ## raiseErr -/

@[simp] theorem State.raiseErr_gen (code : Status) : (s.raiseErr code).gen = s.gen := rfl
@[simp] theorem State.raiseErr_seeded (code : Status) : (s.raiseErr code).seeded = s.seeded := rfl
@[simp] theorem State.raiseErr_input (code : Status) : (s.raiseErr code).input = s.input := rfl
@[simp] theorem State.raiseErr_output (code : Status) :
    (s.raiseErr code).output = s.output ++ [Response.header ⟨code, .noData, 0, []⟩] := rfl
@[simp] theorem State.raiseErr_free (code : Status) : (s.raiseErr code).free = s.free := rfl

/-! ## withGen -/

@[simp] theorem State.withGen_gen (g : GenState) : (s.withGen g).gen = g := rfl
@[simp] theorem State.withGen_seeded (g : GenState) : (s.withGen g).seeded = s.seeded := rfl
@[simp] theorem State.withGen_input (g : GenState) : (s.withGen g).input = s.input := rfl
@[simp] theorem State.withGen_output (g : GenState) : (s.withGen g).output = s.output := rfl
@[simp] theorem State.withGen_free (g : GenState) : (s.withGen g).free = s.free := rfl

/-! ## setSeeded -/

@[simp] theorem State.setSeeded_gen : (s.setSeeded).gen = s.gen := rfl
@[simp] theorem State.setSeeded_seeded : (s.setSeeded).seeded = true := rfl
@[simp] theorem State.setSeeded_input : (s.setSeeded).input = s.input := rfl
@[simp] theorem State.setSeeded_output : (s.setSeeded).output = s.output := rfl
@[simp] theorem State.setSeeded_free : (s.setSeeded).free = s.free := rfl

/-! ## withInput -/

@[simp] theorem State.withInput_gen (q : List Input) : (s.withInput q).gen = s.gen := rfl
@[simp] theorem State.withInput_seeded (q : List Input) : (s.withInput q).seeded = s.seeded := rfl
@[simp] theorem State.withInput_input (q : List Input) : (s.withInput q).input = q := rfl
@[simp] theorem State.withInput_output (q : List Input) : (s.withInput q).output = s.output := rfl
@[simp] theorem State.withInput_free (q : List Input) : (s.withInput q).free = s.free := rfl

/-! ## resetEvent -/

@[simp] theorem State.resetEvent_gen :
    (s.resetEvent).gen = ⟨Config.freeWord s.free, Config.freeWord (s.free + 1), Config.freeWord (s.free + 2), Config.freeWord (s.free + 3)⟩ := rfl
@[simp] theorem State.resetEvent_seeded : (s.resetEvent).seeded = false := rfl
@[simp] theorem State.resetEvent_input : (s.resetEvent).input = s.input := rfl
@[simp] theorem State.resetEvent_output : (s.resetEvent).output = s.output := rfl
@[simp] theorem State.resetEvent_free : (s.resetEvent).free = s.free + 4 := rfl

/-! ## construct -/

@[simp] theorem construct_gen (w0 w1 w2 w3 : Word) : (construct w0 w1 w2 w3 s).gen = ⟨w0, w1, w2, w3⟩ := rfl
@[simp] theorem construct_seeded (w0 w1 w2 w3 : Word) : (construct w0 w1 w2 w3 s).seeded = true := rfl
@[simp] theorem construct_input (w0 w1 w2 w3 : Word) : (construct w0 w1 w2 w3 s).input = s.input := rfl
@[simp] theorem construct_output (w0 w1 w2 w3 : Word) : (construct w0 w1 w2 w3 s).output = s.output ++ [0] := rfl
@[simp] theorem construct_free (w0 w1 w2 w3 : Word) : (construct w0 w1 w2 w3 s).free = s.free := rfl

end Sys2Proof.Machine
end

