-- ==== Sys2Proof/Laws/Ops.lean ====
section
/-!
SUPPORT. One lemma per shared operation that says everything it can do: the `SEEDED` check, taking beats and frames
from the command channel, `Advance` repeated, the byte loop, and the shape of every command's effect.
-/
namespace Sys2Proof.Machine

/-! ## The SEEDED check -/

theorem needSeeded_of_seeded {s : State} (h : s.seeded = true) (effect : State → State) :
    needSeeded effect s = .next (effect s) := by
  simp [needSeeded, h]

theorem needSeeded_of_unseeded {s : State} (h : s.seeded = false) (effect : State → State) :
    needSeeded effect s = .next (s.raiseErr .errUnseeded) := by
  simp [needSeeded, h]

/-! ## Taking beats from the command channel -/

theorem takeBeats_append (beats : List Word) (rest : List Input) :
    takeBeats (beats.map Input.beat ++ rest) beats.length = .all beats rest := by
  induction beats with
  | nil => cases rest <;> rfl
  | cons w beats ih =>
    simp only [List.map_cons, List.cons_append, List.length_cons, takeBeats]
    rw [ih]

theorem takeBeats_short (beats : List Word) (n : Nat) (h : beats.length < n) :
    takeBeats (beats.map Input.beat) n = .short := by
  induction beats generalizing n with
  | nil =>
    cases n with
    | zero => cases h
    | succ n => rfl
  | cons w beats ih =>
    cases n with
    | zero => cases h
    | succ n =>
      simp only [List.map_cons, takeBeats]
      rw [ih n (by simpa using h)]

theorem takeBeats_broken (beats : List Word) (n : Nat) (rest : List Input) (h : beats.length < n) :
    takeBeats (beats.map Input.beat ++ Input.reset :: rest) n = .brokenByReset := by
  induction beats generalizing n with
  | nil =>
    cases n with
    | zero => cases h
    | succ n => rfl
  | cons w beats ih =>
    cases n with
    | zero => cases h
    | succ n =>
      simp only [List.map_cons, List.cons_append, takeBeats]
      rw [ih n (by simpa using h)]

/-- What `takeBeats` has found says how the channel begins. -/
theorem takeBeats_spec (q : List Input) (n : Nat) :
    match takeBeats q n with
    | .all beats rest => q = beats.map Input.beat ++ rest ∧ beats.length = n
    | .short => ∃ beats : List Word, q = beats.map Input.beat ∧ beats.length < n
    | .brokenByReset =>
      ∃ (beats : List Word) (rest : List Input), q = beats.map Input.beat ++ Input.reset :: rest ∧ beats.length < n := by
  induction q generalizing n with
  | nil =>
    cases n with
    | zero => exact ⟨rfl, rfl⟩
    | succ n => exact ⟨[], rfl, Nat.succ_pos n⟩
  | cons e q ih =>
    cases n with
    | zero => cases e <;> exact ⟨rfl, rfl⟩
    | succ n =>
      cases e with
      | reset => exact ⟨[], q, rfl, Nat.succ_pos n⟩
      | beat w =>
        have ihn := ih n
        simp only [takeBeats]
        revert ihn
        cases takeBeats q n with
        | all beats rest =>
          rintro ⟨hq, hn⟩
          exact ⟨by simp [hq], by simp [hn]⟩
        | short =>
          rintro ⟨beats, hq, hn⟩
          exact ⟨w :: beats, by simp [hq], by simpa using hn⟩
        | brokenByReset =>
          rintro ⟨beats, rest, hq, hn⟩
          exact ⟨w :: beats, rest, by simp [hq], by simpa using hn⟩

/-- A whole frame at the front of the channel is what `fetch` gives. -/
theorem fetch_of_frame {q rest : List Input} {w : Word} {payload : List Word} (hf : IsFrame w payload)
    (hq : q = (w :: payload).map Input.beat ++ rest) : fetch q = .frame (w :: payload) rest := by
  subst hq
  have h := takeBeats_append payload rest
  rw [hf] at h
  simp only [List.map_cons, List.cons_append, fetch]
  rw [h]

/-- What `fetch` has found says how the channel begins. -/
theorem fetch_spec (q : List Input) :
    match fetch q with
    | .wait => q = [] ∨ ∃ (w : Word) (payload : List Word),
        q = (w :: payload).map Input.beat ∧ payload.length < payloadBeats w
    | .reset rest => q = Input.reset :: rest
    | .brokenByReset => ResetInsideFrame q
    | .frame beats rest => ∃ (w : Word) (payload : List Word),
        beats = w :: payload ∧ IsFrame w payload ∧ q = (w :: payload).map Input.beat ++ rest := by
  cases q with
  | nil => exact .inl rfl
  | cons e q =>
    cases e with
    | reset => exact rfl
    | beat w =>
      have h := takeBeats_spec q (payloadBeats w)
      simp only [fetch]
      revert h
      cases takeBeats q (payloadBeats w) with
      | all payload rest =>
        rintro ⟨hq, hn⟩
        exact ⟨w, payload, rfl, hn, by simp [hq]⟩
      | short =>
        rintro ⟨payload, hq, hn⟩
        exact .inr ⟨w, payload, by simp [hq], hn⟩
      | brokenByReset =>
        rintro ⟨payload, rest, hq, hn⟩
        exact ⟨w, payload, rest, by simp [hq], hn⟩

/-! ## The headers of the responses (R39) -/

theorem header_seed : Response.header ⟨.ok, .noData, 0, []⟩ = 0x0000000000000000 := by decide

theorem header_errIllegal : Response.header ⟨.errIllegal, .noData, 0, []⟩ = 0x0100000000000000 := by decide

theorem header_errSeedLen : Response.header ⟨.errSeedLen, .noData, 0, []⟩ = 0x0200000000000000 := by decide

theorem header_errUnseeded : Response.header ⟨.errUnseeded, .noData, 0, []⟩ = 0x0300000000000000 := by decide

theorem raiseErr_errIllegal (s : State) :
    s.raiseErr .errIllegal = { s with output := s.output ++ [0x0100000000000000] } := by
  rw [← header_errIllegal]; rfl

theorem raiseErr_errSeedLen (s : State) :
    s.raiseErr .errSeedLen = { s with output := s.output ++ [0x0200000000000000] } := by
  rw [← header_errSeedLen]; rfl

theorem raiseErr_errUnseeded (s : State) :
    s.raiseErr .errUnseeded = { s with output := s.output ++ [0x0300000000000000] } := by
  rw [← header_errUnseeded]; rfl

theorem header_state (d : List Word) : Response.header ⟨.ok, .state, 4, d⟩ = 0x0007000000000004 :=
  show Response.header ⟨.ok, .state, 4, []⟩ = _ by decide

theorem header_u64 (d : List Word) : Response.header ⟨.ok, .u64, 1, d⟩ = 0x0001000000000001 :=
  show Response.header ⟨.ok, .u64, 1, []⟩ = _ by decide

theorem header_i32 (d : List Word) : Response.header ⟨.ok, .i32, 1, d⟩ = 0x0002000000000001 :=
  show Response.header ⟨.ok, .i32, 1, []⟩ = _ by decide

theorem header_i64 (d : List Word) : Response.header ⟨.ok, .i64, 1, d⟩ = 0x0003000000000001 :=
  show Response.header ⟨.ok, .i64, 1, []⟩ = _ by decide

theorem header_f32 (d : List Word) : Response.header ⟨.ok, .f32, 1, d⟩ = 0x0004000000000001 :=
  show Response.header ⟨.ok, .f32, 1, []⟩ = _ by decide

theorem header_f64 (d : List Word) : Response.header ⟨.ok, .f64, 1, d⟩ = 0x0005000000000001 :=
  show Response.header ⟨.ok, .f64, 1, []⟩ = _ by decide

/-- The header of a BYTES response: `0x00060000 ++ n` (R39). -/
theorem header_bytes (n : Word32) (d : List Word) :
    Response.header ⟨.ok, .bytes, n, d⟩ = BitVec.ofNat 64 (0x06 * 2 ^ 48 + n.toNat) := by
  have hx : (Status.ok.code ++ Kind.bytes.code ++ 0#16).toNat = 0x00060000 := by decide
  have h := BitVec.toNat_append (Status.ok.code ++ Kind.bytes.code ++ 0#16) n
  rw [hx, ← Nat.shiftLeft_add_eq_or_of_lt n.isLt, Nat.shiftLeft_eq] at h
  have hn := n.isLt
  exact BitVec.eq_of_toNat_eq (h.trans (by rw [BitVec.toNat_ofNat]; omega))

/-! ## Advance repeated, and the byte loop -/

theorem advanceBy_add (m n : Nat) (g : GenState) : advanceBy (m + n) g = advanceBy n (advanceBy m g) := by
  induction m generalizing g with
  | zero => simp [advanceBy]
  | succ m ih => rw [Nat.succ_add]; exact ih _

@[simp] theorem drawsFrom_length (n : Nat) (g : GenState) : (drawsFrom n g).length = n := by
  induction n generalizing g with
  | zero => rfl
  | succ n ih => simp [drawsFrom, ih]

theorem fillBytes_state (q n : Nat) (g : GenState) : (fillBytes q n g).2 = advanceBy q g := by
  induction q generalizing n g with
  | zero => rfl
  | succ q ih => exact ih _ _

@[simp] theorem fillBytes_length (q n : Nat) (g : GenState) : (fillBytes q n g).1.length = q := by
  induction q generalizing n g with
  | zero => rfl
  | succ q ih => simp [fillBytes, ih]

/-- Data beat `j` of the loop of R75: the low `min(8, n - 8j)` bytes of draw `j`. -/
theorem fillBytes_getElem? (q n : Nat) (g : GenState) (j : Nat) (h : j < q) :
    (fillBytes q n g).1[j]? = some (lowBytes (min 8 (n - 8 * j)) ((drawsFrom q g).getD j 0)) := by
  induction q generalizing n g j with
  | zero => omega
  | succ q ih =>
    cases j with
    | zero => rfl
    | succ j =>
      simp only [fillBytes, drawsFrom, List.getElem?_cons_succ, List.getD_cons_succ]
      rw [ih (n - 8) _ j (by omega), show n - 8 - 8 * j = n - 8 * (j + 1) by omega]

/-! ## Bytes of words -/

@[simp] theorem littleEndian_length (w : Word) : (littleEndian w).length = 8 := by
  simp [littleEndian]

theorem flatMap_littleEndian_length (ws : List Word) : (ws.flatMap littleEndian).length = 8 * ws.length := by
  simp [List.length_flatMap, Nat.mul_comm]

/-- Byte `m` of a run of words is byte `m mod 8` of word `m / 8`. -/
theorem flatMap_littleEndian_getElem? (ws : List Word) (m : Nat) (h : m < 8 * ws.length) :
    (ws.flatMap littleEndian)[m]? = some ((ws.getD (m / 8) 0).extractLsb' (8 * (m % 8)) 8) := by
  induction ws generalizing m with
  | nil => simp at h
  | cons a ws ih =>
    rw [List.flatMap_cons]
    by_cases h8 : m < 8
    · rw [List.getElem?_append_left (by simpa using h8), show m / 8 = 0 by omega, Nat.mod_eq_of_lt h8]
      simp [littleEndian, h8]
    · rw [List.getElem?_append_right (by simp; omega), littleEndian_length,
        ih (m - 8) (by simp at h; omega), show m / 8 = (m - 8) / 8 + 1 by omega, List.getD_cons_succ,
        show (m - 8) % 8 = m % 8 by omega]

/-- Cutting a draw to its low `c` bytes leaves each of those bytes as it was. -/
theorem lowBytes_byte (c m : Nat) (r : Word) (hm : m < c) (hc : c ≤ 8) :
    (lowBytes c r).extractLsb' (8 * m) 8 = r.extractLsb' (8 * m) 8 := by
  apply BitVec.eq_of_getLsbD_eq
  intro i hi
  simp only [lowBytes, BitVec.getLsbD_extractLsb', BitVec.getLsbD_and, BitVec.getLsbD_ofNat,
    Nat.testBit_two_pow_sub_one]
  have h1 : 8 * m + i < 64 := by omega
  have h2 : 8 * m + i < 8 * c := by omega
  simp [h1, h2]

/-! ## The shared effects, as record updates -/

theorem construct_eq (w0 w1 w2 w3 : Word) (s : State) : construct w0 w1 w2 w3 s =
    { s with gen := ⟨w0, w1, w2, w3⟩, seeded := true, output := s.output ++ [0x0000000000000000] } := by
  rw [← header_seed]; rfl

theorem drawOne_eq (kind : Kind) (derive : Word → Word) (s : State) : drawOne kind derive s =
    { s with
      gen := (advance s.gen).2
      output := s.output ++
        [Response.header ⟨.ok, kind, 1, [derive (advance s.gen).1]⟩, derive (advance s.gen).1] } := rfl

theorem drawBytes_eq (n : Word32) (s : State) : drawBytes n s =
    { s with
      gen := advanceBy (drawsForBytes n.toNat) s.gen
      output := s.output ++ BitVec.ofNat 64 (0x06 * 2 ^ 48 + n.toNat) ::
        (fillBytes (drawsForBytes n.toNat) n.toNat s.gen).1 } := by
  simp only [drawBytes, State.withGen, State.respond, Response.beats, header_bytes, fillBytes_state]

/-! ## What a command can do -/

/-- Every command answers a next state that differs from the old one in the state words, the flag, and one response
frame at the end of the response channel. -/
theorem exec_shape (i : Instr) (s : State) :
    ∃ g b r, exec i s = .next { s with gen := g, seeded := b, output := s.output ++ Response.beats r } := by
  cases i with
  | seed w0 w1 w2 w3 => exact ⟨_, _, _, rfl⟩
  | seedv p =>
    simp only [exec, execSeedv]
    split
    · exact ⟨_, _, _, rfl⟩
    · exact ⟨_, _, _, rfl⟩
  | exportState => cases h : s.seeded <;> simp only [exec, execExport, needSeeded, h] <;> exact ⟨s.gen, _, _, rfl⟩
  | nextRaw => cases h : s.seeded <;> simp only [exec, execNextRaw, needSeeded, h] <;> exact ⟨_, _, _, rfl⟩
  | nextI32 => cases h : s.seeded <;> simp only [exec, execNextI32, needSeeded, h] <;> exact ⟨_, _, _, rfl⟩
  | nextI64 => cases h : s.seeded <;> simp only [exec, execNextI64, needSeeded, h] <;> exact ⟨_, _, _, rfl⟩
  | nextF32 => cases h : s.seeded <;> simp only [exec, execNextF32, needSeeded, h] <;> exact ⟨_, _, _, rfl⟩
  | nextF64 => cases h : s.seeded <;> simp only [exec, execNextF64, needSeeded, h] <;> exact ⟨_, _, _, rfl⟩
  | nextBytes n => cases h : s.seeded <;> simp only [exec, execNextBytes, needSeeded, h] <;> exact ⟨_, _, _, rfl⟩

/-- No command looks at the command channel. -/
theorem exec_withInput {i : Instr} {s t : State} (h : exec i s = .next t) (q : List Input) :
    exec i (s.withInput q) = .next (t.withInput q) := by
  obtain ⟨g, b, q0, o, f⟩ := s
  cases i with
  | seed => cases h; rfl
  | seedv p =>
    simp only [exec, execSeedv] at *
    split at h <;> cases h <;> rfl
  | _ => cases b <;> cases h <;> rfl

/-- No command looks at the model's own counter. -/
theorem exec_withFree {i : Instr} {s t : State} (h : exec i s = .next t) (f : Nat) :
    exec i { s with free := f } = .next { t with free := f } := by
  obtain ⟨g, b, q, o, f0⟩ := s
  cases i with
  | seed => cases h; rfl
  | seedv p =>
    simp only [exec, execSeedv] at *
    split at h <;> cases h <;> rfl
  | _ => cases b <;> cases h <;> rfl

/-- What a step can do, when it answers a next state. -/
theorem step_cases {s t : State} (h : step s = .next t) :
    t = s ∨
    (∃ rest, s.input = Input.reset :: rest ∧ t = (s.withInput rest).resetEvent) ∨
    (∃ w payload rest i, IsFrame w payload ∧ s.input = (w :: payload).map Input.beat ++ rest ∧
      decode (w :: payload) = .ok i ∧ exec i (s.withInput rest) = .next t) ∨
    (∃ w payload rest e, IsFrame w payload ∧ s.input = (w :: payload).map Input.beat ++ rest ∧
      decode (w :: payload) = .error e ∧ t = (s.withInput rest).raiseErr .errIllegal) := by
  have hf := fetch_spec s.input
  simp only [step] at h
  revert hf h
  cases fetch s.input with
  | wait => rintro h -; cases h; exact .inl rfl
  | reset rest => rintro h hq; cases h; exact .inr (.inl ⟨rest, hq, rfl⟩)
  | brokenByReset => intro h; cases h
  | frame beats rest =>
    rintro h ⟨w, payload, rfl, hfr, hq⟩
    cases hd : decode (w :: payload) with
    | ok i => exact .inr (.inr (.inl ⟨w, payload, rest, i, hfr, hq, hd, by simpa [hd] using h⟩))
    | error e =>
      refine .inr (.inr (.inr ⟨w, payload, rest, e, hfr, hq, hd, ?_⟩))
      simp only [hd] at h
      cases h
      rfl

/-! ## Runs -/

theorem core_run_next {s t : State} (h : step s = .next t) (k : Nat) : core.run (k + 1) s = core.run k t := by
  have h' : core.step s = .next t := h
  simp only [Host.Core.run, h']

theorem core_run_refused {s : State} {r : Refusal} (h : step s = .refused r) (k : Nat) :
    core.run (k + 1) s = .refused r := by
  have h' : core.step s = .refused r := h
  simp only [Host.Core.run, h']

theorem runInstrs_cons {i : Instr} {s t : State} (h : exec i s = .next t) (is : List Instr) :
    runInstrs (i :: is) s = runInstrs is t := by
  simp only [runInstrs, h]

end Sys2Proof.Machine
end

