-- ==== Sys2Proof/Laws/PerInstr.lean ====
section
/-!
SUPPORT. The per-instruction family FrameLength: the frame of a well-formed instruction is its command word and exactly
the `m(W)` payload beats that the word announces (`spec/30_encoding.md` R34).
-/
namespace Sys2Proof.Laws.FrameLength

/-- The encoded instruction is one whole frame (R34). -/
def Statement (i : Instr) : Prop :=
  i.wellFormed = true → ∃ w payload, encode i = w :: payload ∧ IsFrame w payload

theorem seed (w0 w1 w2 w3 : Word) : Statement (.seed w0 w1 w2 w3) :=
  fun _ => ⟨_, _, rfl, rfl⟩

theorem seedv (payload : List Word) : Statement (.seedv payload) := by
  intro h
  refine ⟨_, _, rfl, ?_⟩
  simp only [Instr.wellFormed, decide_eq_true_eq] at h
  simpa [IsFrame, payloadBeats_commandWord] using (Nat.mod_eq_of_lt h).symm

theorem exportState : Statement .exportState := fun _ => ⟨_, _, rfl, rfl⟩

theorem nextRaw : Statement .nextRaw := fun _ => ⟨_, _, rfl, rfl⟩

theorem nextI32 : Statement .nextI32 := fun _ => ⟨_, _, rfl, rfl⟩

theorem nextI64 : Statement .nextI64 := fun _ => ⟨_, _, rfl, rfl⟩

theorem nextF32 : Statement .nextF32 := fun _ => ⟨_, _, rfl, rfl⟩

theorem nextF64 : Statement .nextF64 := fun _ => ⟨_, _, rfl, rfl⟩

theorem nextBytes (n : Word32) : Statement (.nextBytes n) := fun _ => ⟨_, _, rfl, by
  simp [IsFrame, payloadBeats_commandWord]⟩

end Sys2Proof.Laws.FrameLength
end

