-- ==== Sys2Proof/Tests/Slice0.lean ====
section
/-!
SUPPORT. The model's own tests. Expected values come from the vectors of `spec/95_test_vectors.md` (each test names
its vector) or from the encoding tables of `spec/30_encoding.md`. The last part shows, for every statement with
hypotheses, values that meet them.
-/
namespace Sys2Proof.Tests

open Sys2Proof.Machine

/-! ## Helpers -/

/-- A block seeded with the four words, channels empty. -/
def seededWith (s0 s1 s2 s3 : Word) : State := { State.reset with gen := ⟨s0, s1, s2, s3⟩, seeded := true }

/-- Seed A of `95_test_vectors.md`. -/
def seedA : State := seededWith 0x012de1babb3c4104 0xa5a818b8fc5aa503 0xb124ea2b701f4993 0x18e0374933d8c782

/-- The state words of V2.1 row 0. -/
def rowA0 : GenState := ⟨0xbc65ce4b74be2385, 0x15a113293779ad94, 0x8178f32481250897, 0x4c5037a905fe39f0⟩

/-- The state words of V2.1 row 1. -/
def rowA1 : GenState := ⟨0xe594eacb4639b7e1, 0x28bc2e46c2e28686, 0x1b4f539caeb32b12, 0xf28c8b3e24900650⟩

/-- `s` with the beats at the end of its command channel. -/
def sent (s : State) (beats : List Word) : State := { s with input := s.input ++ beats.map Input.beat }

/-- After one step with the frame sent: the response channel, the state words, the flag, and whether the command
channel is empty again. -/
def after (s : State) (beats : List Word) : Option (List Word × GenState × Bool × Bool) :=
  match step (sent s beats) with
  | .next t => some (t.output, t.gen, t.seeded, t.input.isEmpty)
  | .fault _ => none
  | .refused _ => none

/-- The response to one frame alone. -/
def response (s : State) (beats : List Word) : Option (List Word) := (after s beats).map Prod.fst

/-! ## WellFormed: each check has a term it refuses -/

/-- A SEEDV payload of 2^32 words cannot be counted in ARG (R37). -/
theorem test_wellFormed_refuses_long_seedv :
    (Instr.seedv (List.replicate (2 ^ 32) 0)).wellFormed = false := by
  simp only [Instr.wellFormed, List.length_replicate]; decide

theorem test_wellFormed_accepts :
    (Instr.seed 1 2 3 4).wellFormed = true ∧ (Instr.seedv []).wellFormed = true ∧
    (Instr.seedv [1, 2, 3, 4, 5]).wellFormed = true ∧ (Instr.nextBytes 0xFFFFFFFF).wellFormed = true := by decide

/-! ## Decoding: one word per command, written out bit by bit from R33 and R35 as OP, RSV, ARG -/

theorem test_decode_seed :
    decode [0b00000001_000000000000000000000000_00000000000000000000000000000000, 5, 6, 7, 8]
      = .ok (.seed 5 6 7 8) := by decide

theorem test_decode_seedv :
    decode [0b00000010_000000000000000000000000_00000000000000000000000000000100, 5, 6, 7, 8]
      = .ok (.seedv [5, 6, 7, 8]) ∧
    decode [0b00000010_000000000000000000000000_00000000000000000000000000000000] = .ok (.seedv []) := by decide

theorem test_decode_exportState :
    decode [0b00000011_000000000000000000000000_00000000000000000000000000000000] = .ok .exportState := by decide

theorem test_decode_nextRaw :
    decode [0b00010000_000000000000000000000000_00000000000000000000000000000000] = .ok .nextRaw := by decide

theorem test_decode_nextI32 :
    decode [0b00010001_000000000000000000000000_00000000000000000000000000000000] = .ok .nextI32 := by decide

theorem test_decode_nextI64 :
    decode [0b00010010_000000000000000000000000_00000000000000000000000000000000] = .ok .nextI64 := by decide

theorem test_decode_nextF32 :
    decode [0b00010011_000000000000000000000000_00000000000000000000000000000000] = .ok .nextF32 := by decide

theorem test_decode_nextF64 :
    decode [0b00010100_000000000000000000000000_00000000000000000000000000000000] = .ok .nextF64 := by decide

theorem test_decode_nextBytes :
    decode [0b00010101_000000000000000000000000_10000000000000000000000000001011]
      = .ok (.nextBytes 0x8000000B) := by decide

/-- R42: the words of V6.8 to V6.16, refused by name. -/
theorem test_decode_refuses_illegal :
    decode [0x0000000000000000] = .error .reservedOpcode ∧ decode [0x1600000000000000] = .error .reservedOpcode ∧
    decode [0xFF00000000000000] = .error .reservedOpcode ∧ decode [0x1000000000000001] = .error .nonzeroArg ∧
    decode [0x1100000100000000] = .error .nonzeroRsv ∧ decode [0x1500000100000008] = .error .nonzeroRsv ∧
    decode [0x0100000000000004, 9, 9, 9, 9] = .error .nonzeroArg ∧
    decode [0x0200000100000003, 1, 2, 3] = .error .nonzeroRsv ∧ decode [0x0300000000000001] = .error .nonzeroArg := by
  decide

/-- Lists of beats that are no frame (R34, R44). -/
theorem test_decode_refuses_no_frame :
    decode [] = .error .noCommandWord ∧ decode [0x0100000000000000, 1, 2, 3] = .error .wrongPayloadLength ∧
    decode [0x0200000000000001] = .error .wrongPayloadLength ∧
    decode [0x1000000000000000, 1] = .error .wrongPayloadLength := by decide

/-- R35: no word matches two rows of the opcode table. -/
theorem test_opcodeTable_disjoint :
    opcodeTable.Pairwise (fun a b => a.pattern &&& (a.mask &&& b.mask) ≠ b.pattern &&& (a.mask &&& b.mask)) := by
  decide

/-- The host's numbering: bits 63..0 are the command word, 127..64 the first payload beat. -/
theorem test_decodeTableWord :
    decodeTableWord 64 0x150000000000000B = some (.nextBytes 11) ∧
    decodeTableWord 64 0x0100000000000000 = some (.seed 0 0 0 0) ∧
    decodeTableWord 192 0x0000000000000002_0000000000000001_0100000000000000 = some (.seed 1 2 0 0) ∧
    decodeTableWord 64 0x0200000000000004 = some (.seedv [0, 0, 0, 0]) ∧
    decodeTableWord 64 0x1600000000000000 = none := by decide

theorem test_withFetchWord_runs_first :
    step (State.reset.withFetchWord 64 0x0100000000000000) =
      .next { State.reset with seeded := true, output := [0] } ∧
    step (State.reset.withFetchWord 64 0x0200000000000005) = .next { State.reset with output := [0x0200000000000000] } := by
  exact ⟨rfl, rfl⟩

/-! ## The commands -/

/-- P1 pc 0: SEED A. -/
theorem test_seed : after State.reset [0x0100000000000000, 0x012de1babb3c4104, 0xa5a818b8fc5aa503,
    0xb124ea2b701f4993, 0x18e0374933d8c782] = some ([0x0000000000000000], seedA.gen, true, true) := by decide

/-- P4 pc 17: a SEED on a live stream replaces it. -/
theorem test_seed_replaces : after seedA [0x0100000000000000, 0, 1, 0, 0] =
    some ([0x0000000000000000], ⟨0, 1, 0, 0⟩, true, true) := by decide

/-- V2.7: SEEDV with the four words of A gives the state SEED A gives. -/
theorem test_seedv : after State.reset [0x0200000000000004, 0x012de1babb3c4104, 0xa5a818b8fc5aa503,
    0xb124ea2b701f4993, 0x18e0374933d8c782] = some ([0x0000000000000000], seedA.gen, true, true) := by decide

/-- V6.5 to V6.7, V6.17, V6.18: any other count is refused whole, seeded or not. -/
theorem test_seedv_wrong_count :
    after State.reset [0x0200000000000003, 1, 2, 3] = some ([0x0200000000000000], ⟨0, 0, 0, 0⟩, false, true) ∧
    after State.reset [0x0200000000000000] = some ([0x0200000000000000], ⟨0, 0, 0, 0⟩, false, true) ∧
    after seedA [0x0200000000000005, 1, 2, 3, 4, 5] = some ([0x0200000000000000], seedA.gen, true, true) := by decide

/-- V2.7: EXPORT after SEED A. -/
theorem test_exportState : after seedA [0x0300000000000000] = some ([0x0007000000000004, 0x012de1babb3c4104,
    0xa5a818b8fc5aa503, 0xb124ea2b701f4993, 0x18e0374933d8c782], seedA.gen, true, true) := by decide

/-- V2.1 rows 0 and 1. -/
theorem test_nextRaw :
    after seedA [0x1000000000000000] = some ([0x0001000000000001, 0x462c422df780c48e], rowA0, true, true) ∧
    after { seedA with gen := rowA0 } [0x1000000000000000] =
      some ([0x0001000000000001, 0xa82f1f6031c183e6], rowA1, true, true) := by decide

/-- V2.4 row 1 and V2.6 K12: a draw of 0 from a nonzero state, and wrap-around in both multiplications. -/
theorem test_nextRaw_corners :
    after (seededWith 7 0 0x40002 0x0000c00000000000) [0x1000000000000000] = some ([0x0001000000000001, 0],
      ⟨0x0000c00000000007, 0x0000000000040005, 0x0000000000040005, 0x0000000018000000⟩, true, true) ∧
    after (seededWith 0 0xffffffffffffffff 0 0) [0x1000000000000000] = some ([0x0001000000000001, 0xffffffffffffedf7],
      ⟨0xffffffffffffffff, 0xffffffffffffffff, 0xfffffffffffe0000, 0xffffffffffffffff⟩, true, true) := by decide

/-- V3.1 row A/1: the high half of the draw. -/
theorem test_nextI32 : after { seedA with gen := rowA0 } [0x1100000000000000] =
    some ([0x0002000000000001, 0x00000000a82f1f60], rowA1, true, true) := by decide

/-- V3.2 K1, K2 and K5: zero-extended in the beat; the low half does not count. -/
theorem test_nextI32_corners :
    response (seededWith 0 0x4fc71c71c71c71c7 0 0) [0x1100000000000000] = some [0x0002000000000001, 0xffffffff] ∧
    response (seededWith 0 0xcd00000000000000 0 0) [0x1100000000000000] = some [0x0002000000000001, 0x80000000] ∧
    response (seededWith 0 0x83111111111c71c7 0 0) [0x1100000000000000] = some [0x0002000000000001, 0] := by decide

/-- V3.1 row A/0 and V3.2 K2. -/
theorem test_nextI64 :
    after seedA [0x1200000000000000] = some ([0x0003000000000001, 0x462c422df780c48e], rowA0, true, true) ∧
    response (seededWith 0 0xcd00000000000000 0 0) [0x1200000000000000] =
      some [0x0003000000000001, 0x8000000000000000] := by decide

/-- V4.1 rows A/0 and A/1. -/
theorem test_nextF32 :
    after seedA [0x1300000000000000] = some ([0x0004000000000001, 0x3e8c5884], rowA0, true, true) ∧
    response { seedA with gen := rowA0 } [0x1300000000000000] = some [0x0004000000000001, 0x3f282f1f] := by decide

/-- V4.12 K1, K3, K7 and K10: the largest, just below 0.5, the smallest nonzero, and zero. -/
theorem test_nextF32_corners :
    response (seededWith 0 0x4fc71c71c71c71c7 0 0) [0x1300000000000000] = some [0x0004000000000001, 0x3f7fffff] ∧
    response (seededWith 0 0x1cc71c71c71c71c7 0 0) [0x1300000000000000] = some [0x0004000000000001, 0x3efffffe] ∧
    response (seededWith 0 0x99f49f4a00000000 0 0) [0x1300000000000000] = some [0x0004000000000001, 0x33800000] ∧
    response (seededWith 0 0x4fbbbbbbc71c71c7 0 0) [0x1300000000000000] = some [0x0004000000000001, 0] := by decide

/-- V4.1 rows A/0 and A/1. -/
theorem test_nextF64 :
    after seedA [0x1400000000000000] = some ([0x0005000000000001, 0x3fd18b108b7de030], rowA0, true, true) ∧
    response { seedA with gen := rowA0 } [0x1400000000000000] =
      some [0x0005000000000001, 0x3fe505e3ec063830] := by decide

/-- V4.12 K1, K8, K9 and K6. -/
theorem test_nextF64_corners :
    response (seededWith 0 0x4fc71c71c71c71c7 0 0) [0x1400000000000000] =
      some [0x0005000000000001, 0x3fefffffffffffff] ∧
    response (seededWith 0 0x004fa4fa4fa4fa50 0 0) [0x1400000000000000] =
      some [0x0005000000000001, 0x3ca0000000000000] ∧
    response (seededWith 0 0xb616c16c16c16c17 0 0) [0x1400000000000000] = some [0x0005000000000001, 0] ∧
    response (seededWith 0 0x66b60b60b6000000 0 0) [0x1400000000000000] =
      some [0x0005000000000001, 0x3fefffffffe00000] := by decide

/-- V5.6 and V5.1: eleven bytes and none. -/
theorem test_nextBytes :
    after seedA [0x150000000000000b] = some ([0x000600000000000b, 0x462c422df780c48e, 0x0000000000c183e6],
      rowA1, true, true) ∧
    after seedA [0x1500000000000000] = some ([0x0006000000000000], seedA.gen, true, true) := by decide

/-- V5.4, V5.10 and V5.11: a cut draw, and the byte order. -/
theorem test_nextBytes_tail :
    response seedA [0x1500000000000007] = some [0x0006000000000007, 0x002c422df780c48e] ∧
    response (seededWith 0 0x7d338e88cd05de00 0 0) [0x1500000000000008] =
      some [0x0006000000000008, 0x0807060504030201] ∧
    response (seededWith 0 0x7d338e88cd05de00 0 0) [0x1500000000000003] = some [0x0006000000000003, 0x30201] ∧
    bufferOf 8 [0x0807060504030201] = [1, 2, 3, 4, 5, 6, 7, 8] := by decide

/-- V6.1 to V6.4: every command that needs a generator, without one. -/
theorem test_unseeded :
    [0x1000000000000000, 0x0300000000000000, 0x1500000000000000, 0x1100000000000000, 0x1200000000000000,
      0x1300000000000000, 0x1400000000000000].map (fun w => after State.reset [w]) =
    List.replicate 7 (some ([0x0300000000000000], ⟨0, 0, 0, 0⟩, false, true)) := by decide

/-- V6.8 to V6.16: illegal words, their payload consumed and ignored, before any other error. -/
theorem test_illegal :
    ∀ f ∈ [[0x0000000000000000], [0x1600000000000000], [0xff00000000000000], [0x1000000000000001],
      [0x1100000100000000], [0x1500000100000008], [0x0100000000000004, 9, 9, 9, 9], [0x0200000100000003, 1, 2, 3],
      [(0x0300000000000001 : Word)]],
      after State.reset f = some ([0x0100000000000000], ⟨0, 0, 0, 0⟩, false, true) ∧
      after seedA f = some ([0x0100000000000000], seedA.gen, true, true) := by decide

/-- R19, R95: after the reset event every draw answers `ERR_UNSEEDED` (`95_test_vectors.md` section 7). -/
theorem test_reset_event :
    ∃ t u, step { seedA with input := [Input.reset, Input.beat 0x1000000000000000] } = .next t ∧
      t.seeded = false ∧ t.free = 4 ∧ step t = .next u ∧ u.output = [0x0300000000000000] :=
  ⟨_, _, rfl, rfl, rfl, rfl, by decide⟩

/-- V4.2: pure values of `F32Bits` and `F64Bits`. -/
theorem test_float_patterns :
    f32Bits 2 = 0x34000000 ∧ f32Bits 3 = 0x34400000 ∧ f32Bits 0x800001 = 0x3f000001 ∧
    f64Bits 3 = 0x3cb8000000000000 ∧ f64Bits 0x10000000000001 = 0x3fe0000000000001 := by decide

/-! ## Witnesses: values that meet the hypotheses of each statement -/

/-- PrimitivesAreModular: the ends of the shift and bit ranges. -/
theorem witness_primitives :
    (0 < 1 ∧ 1 < 64 ∧ 0 < 64) ∧ (0 < 63 ∧ 63 < 64) ∧ rotl64 0x8000000000000000 1 = 1 ∧ rotl64 3 63 = 0x8000000000000001 ∧
    shl64 3 63 = 0x8000000000000000 ∧ shr64 0x8000000000000000 63 = 1 := by decide

/-- ZeroStateDrawsZerosForEver: two states with the same `s[1]`, and the zero stream with a command of each length. -/
theorem witness_zero_state :
    (GenState.mk 1 5 0 0).s1 = (GenState.mk 2 5 0 9).s1 ∧ (seededWith 0 0 0 0).seeded = true ∧
    (seededWith 0 0 0 0).gen = ⟨0, 0, 0, 0⟩ ∧ Instr.exportState.needsSeeded = true ∧
    (Instr.nextBytes 0).needsSeeded = true ∧ (Instr.nextBytes 0xFFFFFFFF).needsSeeded = true := by decide

/-- NonzeroStateNeverReachesZero and DrawIsBijectionOfSecondWord. -/
theorem witness_nonzero_state :
    nextGen seedA.gen = nextGen seedA.gen ∧ seedA.gen ≠ ⟨0, 0, 0, 0⟩ ∧ scramble 2 = scramble 2 := by decide

/-- FrameLengthComesFromCommandWord, EachFrameGetsOneLegalResponse, ErrorPriority: whole frames of every length,
legal and not. -/
theorem witness_frames :
    IsFrame 0x0100000000000000 [1, 2, 3, 4] ∧ IsFrame 0x0100000100000007 [1, 2, 3, 4] ∧
    IsFrame 0x0200000000000000 [] ∧ IsFrame 0x0200000000000001 [7] ∧ IsFrame 0xFF00000000000005 [] ∧
    (sent seedA [0x0200000000000001, 7]).input = [0x0200000000000001, 7].map Input.beat ++ [] := by decide

/-- DecodeInvertsEncode and EncodeInvertsDecode: the shortest and a longer payload, the largest byte count. -/
theorem witness_encode :
    (Instr.seedv []).wellFormed = true ∧ (Instr.seedv [1, 2, 3, 4, 5]).wellFormed = true ∧
    (Instr.seed 0 1 2 3).wellFormed = true ∧ Instr.exportState.wellFormed = true ∧
    (Instr.nextBytes 0xFFFFFFFF).wellFormed = true ∧
    decode [0x0200000000000000] = .ok (.seedv []) ∧ decode [0x15000000FFFFFFFF] = .ok (.nextBytes 0xFFFFFFFF) := by
  decide

/-- IllegalWordsAnswerErrIllegal: a reserved opcode, a nonzero RSV, a nonzero ARG, and a legal word. -/
theorem witness_illegal :
    (IllegalWord 0x0400000000000000 = true ∧ IsFrame 0x0400000000000000 []) ∧
    (IllegalWord 0x0200000100000001 = true ∧ IsFrame 0x0200000100000001 [7]) ∧
    (IllegalWord 0x0100000000000001 = true ∧ IsFrame 0x0100000000000001 [1, 2, 3, 4]) ∧
    (IllegalWord 0x02000000FFFFFFFF = false ∧ IllegalWord 0x15000000FFFFFFFF = false) ∧
    (IllegalWord 0x0200000000000001 = false ∧ IsFrame 0x0200000000000001 [7]) ∧
    (sent seedA [0x0200000100000001, 7]).input = [0x0200000100000001, 7].map Input.beat ++ [] := by decide

/-- StepRunsDecodedInstruction and RunOverFramesIsFoldOfExec: two frames in the channel. -/
theorem witness_step_runs :
    decode [0x1000000000000000] = .ok .nextRaw ∧ Instr.nextRaw.wellFormed = true ∧
    (sent seedA [0x1000000000000000, 0x0200000000000001, 7]).input =
      (encode .nextRaw).map Input.beat ++ [0x0200000000000001, 7].map Input.beat ∧
    (∀ i ∈ [Instr.nextRaw, .seedv [7]], i.wellFormed = true) ∧
    (sent seedA [0x1000000000000000, 0x0200000000000001, 7]).input =
      ([Instr.nextRaw, .seedv [7]].flatMap encode).map Input.beat ++ [] ∧
    (∀ f ∈ [((0xFF00000000000000 : Word), ([] : List Word)), (0x0200000000000001, [7])], IsFrame f.1 f.2) ∧
    (sent seedA [0xFF00000000000000, 0x0200000000000001, 7]).input =
      ([((0xFF00000000000000 : Word), ([] : List Word)), (0x0200000000000001, [7])].flatMap
        fun f => f.1 :: f.2).map Input.beat ++ [] := by decide

/-- IncompleteFrameWaits: an empty channel, a command word alone, and a frame one beat short. -/
theorem witness_waits :
    seedA.input = [] ∧ (([] : List Word).length < payloadBeats 0x0200000000000001) ∧
    (sent seedA [0x0200000000000001]).input = [(0x0200000000000001 : Word)].map Input.beat ∧
    ([1, 2, 3] : List Word).length < payloadBeats 0x0100000000000000 ∧
    (sent seedA [0x0100000000000000, 1, 2, 3]).input = [(0x0100000000000000 : Word), 1, 2, 3].map Input.beat := by decide

/-- StepStopsOnlyAtResetInsideFrame: a reset event after the command word of SEED stops; one before it does not. -/
theorem witness_reset_inside :
    ResetInsideFrame [Input.beat 0x0100000000000000, Input.reset] ∧
    ResetInsideFrame [Input.beat 0x0100000000000000, Input.beat 1, Input.beat 2, Input.beat 3, Input.reset] ∧
    ¬ ResetInsideFrame [Input.reset, Input.beat 0x0100000000000000] ∧ ¬ ResetInsideFrame [] := by
  refine ⟨⟨0x0100000000000000, [], [], rfl, by decide⟩, ⟨0x0100000000000000, [1, 2, 3], [], rfl, by decide⟩, ?_, ?_⟩
  · rintro ⟨w, p, r, h, -⟩; cases h
  · rintro ⟨w, p, r, h, -⟩; cases h

/-- ErrorChangesNothing: each of the three errors is the answer to some frame. -/
theorem witness_errors :
    (∃ t, IsFrame 0x0100000000000001 [1, 2, 3, 4] ∧ step (sent seedA [0x0100000000000001, 1, 2, 3, 4]) = .next t ∧
      t.output[seedA.output.length]? = some 0x0100000000000000) ∧
    (∃ t, IsFrame 0x0200000000000001 [7] ∧ step (sent seedA [0x0200000000000001, 7]) = .next t ∧
      t.output[seedA.output.length]? = some 0x0200000000000000) ∧
    (∃ t, IsFrame 0x1500000000000000 [] ∧ step (sent State.reset [0x1500000000000000]) = .next t ∧
      t.output[State.reset.output.length]? = some 0x0300000000000000) ∧
    (0x0100000000000000 : Word).extractLsb' 56 8 ≠ 0 ∧ (0x0200000000000000 : Word).extractLsb' 56 8 ≠ 0 ∧
    (0x0300000000000000 : Word).extractLsb' 56 8 ≠ 0 :=
  ⟨⟨_, by decide, rfl, by decide⟩, ⟨_, by decide, rfl, by decide⟩, ⟨_, by decide, rfl, by decide⟩, by decide, by decide, by decide⟩

/-- ErrorPriority: a frame for each branch of its chain. -/
theorem witness_priority :
    IllegalWord 0x0200000100000003 = true ∧
    (IllegalWord 0x0200000000000003 = false ∧ (0x0200000000000003 : Word).extractLsb' 0 32 ≠ 4) ∧
    (IllegalWord 0x1000000000000000 = false ∧ State.reset.seeded = false) ∧
    (IllegalWord 0x0200000000000004 = false ∧ IsFrame 0x0200000000000004 [1, 2, 3, 4]) := by decide

/-- SeedSetsStateVerbatim: OP 0x01 with RSV alone and with ARG alone nonzero. -/
theorem witness_seed_illegal :
    ((0x0100000100000000 : Word).extractLsb' 56 8 = 0x01 ∧ (0x0100000100000000 : Word).extractLsb' 32 24 ≠ 0) ∧
    ((0x0100000000000001 : Word).extractLsb' 56 8 = 0x01 ∧ (0x0100000000000001 : Word).extractLsb' 0 32 ≠ 0) ∧
    (sent seedA [0x0100000000000001, 1, 2, 3, 4]).input = [0x0100000000000001, 1, 2, 3, 4].map Input.beat ++ [] := by
  decide

/-- SeedvTakesExactlyFourWords: three, five and no words, and RSV nonzero with as many words as ARG says. -/
theorem witness_seedv :
    ([1, 2, 3] : List Word).length ≠ 4 ∧ ([1, 2, 3, 4, 5] : List Word).length ≠ 4 ∧ ([] : List Word).length ≠ 4 ∧
    ([] : List Word).length < 2 ^ 32 ∧ ([1, 2, 3, 4] : List Word).length < 2 ^ 32 ∧
    ((0x0280000000000004 : Word).extractLsb' 56 8 = 0x02 ∧ (0x0280000000000004 : Word).extractLsb' 32 24 ≠ 0 ∧
      ([1, 2, 3, 4] : List Word).length = ((0x0280000000000004 : Word).extractLsb' 0 32).toNat) ∧
    (sent seedA [0x0280000000000004, 1, 2, 3, 4]).input = [0x0280000000000004, 1, 2, 3, 4].map Input.beat ++ [] := by
  decide

/-- The hypotheses of `PlainCommandRule` for the opcode `op`: an unseeded block, and words with RSV alone and with ARG
alone nonzero, at the low end of each field and at the high end. -/
def PlainWitness (op : Byte) (rsv arg : Word) : Prop :=
  State.reset.seeded = false ∧
  (rsv.extractLsb' 56 8 = op ∧ rsv.extractLsb' 32 24 ≠ 0 ∧ rsv.extractLsb' 0 32 = 0) ∧
  (arg.extractLsb' 56 8 = op ∧ arg.extractLsb' 32 24 = 0 ∧ arg.extractLsb' 0 32 ≠ 0) ∧
  (sent seedA [rsv]).input = [Input.beat rsv] ∧ (sent seedA [arg]).input = [Input.beat arg]

theorem witness_plain_exportState : PlainWitness 0x03 0x0300000100000000 0x0300000000000001 := by
  unfold PlainWitness; decide
theorem witness_plain_nextRaw : PlainWitness 0x10 0x1080000000000000 0x1000000080000000 := by
  unfold PlainWitness; decide
theorem witness_plain_nextI32 : PlainWitness 0x11 0x1100000100000000 0x1100000000000001 := by
  unfold PlainWitness; decide
theorem witness_plain_nextI64 : PlainWitness 0x12 0x1280000000000000 0x1200000080000000 := by
  unfold PlainWitness; decide
theorem witness_plain_nextF32 : PlainWitness 0x13 0x1300000100000000 0x1300000000000001 := by
  unfold PlainWitness; decide
theorem witness_plain_nextF64 : PlainWitness 0x14 0x1480000000000000 0x1400000080000000 := by
  unfold PlainWitness; decide

/-- The one hypothesis of the result statements (ExportReturnsTheFourWords, SeedOfExportRestoresState, the NEXT_*
statements, F32OutputLiesInUnitInterval, F64OutputLiesInUnitInterval, I32StreamIsHighHalvesOfRawStream,
I32IsArithmeticHighHalfOfI64, NextBytesIsTruncatedRawDraws): a seeded block. -/
theorem witness_seeded : seedA.seeded = true ∧ (seededWith 0 0 0 0).seeded = true := by decide

/-- SeededFlagRule: a command that constructs, one that does not, a step that sets the flag, one that clears it, and a
command without a generator. -/
theorem witness_seeded_flag :
    (∃ t, exec (.seedv [1, 2, 3, 4]) State.reset = .next t ∧ t.seeded = true) ∧
    (∃ t, exec (.seedv [1, 2, 3]) State.reset = .next t ∧ t.seeded = false) ∧
    (∃ t, step (sent State.reset [0x0100000000000000, 1, 2, 3, 4]) = .next t ∧ t.seeded = true) ∧
    (∃ t, step { seedA with input := [Input.reset] } = .next t ∧ seedA.seeded = true ∧ t.seeded = false) ∧
    (Instr.exportState.needsSeeded = true ∧ State.reset.seeded = false) :=
  ⟨⟨_, rfl, rfl⟩, ⟨_, rfl, rfl⟩, ⟨_, rfl, rfl⟩, ⟨_, rfl, rfl, rfl⟩, by decide⟩

/-- F32BitsDenotesScaledInteger: `p` at both ends of its range, `k` at both ends for that `p`. -/
theorem witness_f32Bits :
    (2 ^ 0 ≤ (1 : BitVec 24).toNat ∧ (1 : BitVec 24).toNat < 2 ^ 1) ∧
    (2 ^ 23 ≤ (0x800000 : BitVec 24).toNat ∧ (0xFFFFFF : BitVec 24).toNat < 2 ^ 24) ∧ (1 : BitVec 24) ≠ 0 ∧
    f32Bits 5 = f32Bits 5 := by decide

/-- F64BitsDenotesScaledInteger: the same. -/
theorem witness_f64Bits :
    (2 ^ 0 ≤ (1 : BitVec 53).toNat ∧ (1 : BitVec 53).toNat < 2 ^ 1) ∧
    (2 ^ 52 ≤ (0x10000000000000 : BitVec 53).toNat ∧ (0x1FFFFFFFFFFFFF : BitVec 53).toNat < 2 ^ 53) ∧
    (1 : BitVec 53) ≠ 0 ∧ f64Bits 5 = f64Bits 5 := by decide

/-- NextBytesReturnsLittleEndianDraws: the first and last beat and byte of the shortest and of a longer request, and the
words with RSV nonzero. -/
theorem witness_nextBytes :
    (0 < ((1 : Word32).toNat + 7) / 8 ∧ 0 < (1 : Word32).toNat) ∧
    (1 < ((9 : Word32).toNat + 7) / 8 ∧ 8 < (9 : Word32).toNat) ∧ seedA.seeded = true ∧ State.reset.seeded = false ∧
    ((0x1500000100000000 : Word).extractLsb' 56 8 = 0x15 ∧ (0x1500000100000000 : Word).extractLsb' 32 24 ≠ 0) ∧
    ((0x15800000FFFFFFFF : Word).extractLsb' 56 8 = 0x15 ∧ (0x15800000FFFFFFFF : Word).extractLsb' 32 24 ≠ 0) ∧
    (sent seedA [0x1500000100000000]).input = Input.beat 0x1500000100000000 :: [] := by decide

/-- SplittingBytesKeepsDataAtMultiplesOfEight: a tail of one and of seven bytes; a zero first part, an uneven second one, and the largest sum. -/
theorem witness_split :
    (1 : Word32).toNat % 8 ≠ 0 ∧ (0xFFFFFFFF : Word32).toNat % 8 ≠ 0 ∧
    ((0 : Word32).toNat % 8 = 0 ∧ (0 : Word32).toNat + (3 : Word32).toNat < 2 ^ 32) ∧
    ((8 : Word32).toNat % 8 = 0 ∧ (8 : Word32).toNat + (3 : Word32).toNat < 2 ^ 32) ∧
    ((0xFFFFFFF8 : Word32).toNat % 8 = 0 ∧ (0xFFFFFFF8 : Word32).toNat + (7 : Word32).toNat < 2 ^ 32) ∧
    seedA.seeded = true := by decide

/-- NextBytesZeroDrawsNothing and NextBytesAgreesWithOtherCommands: a seeded and an unseeded block, and `n` at the ends
of its range. -/
theorem witness_bytes_relations :
    seedA.seeded = true ∧ State.reset.seeded = false ∧ 8 ≤ (8 : Word32).toNat ∧ 8 ≤ (0xFFFFFFFF : Word32).toNat := by
  decide

/-- EachDrawIsOneAdvance and StateIsAdvancePowerOfSeed: commands that do not construct, a refused SEEDV among them. -/
theorem witness_draws :
    seedA.seeded = true ∧
    (∀ i ∈ [Instr.exportState, .nextRaw, .nextI32, .nextI64, .nextF32, .nextF64, .nextBytes 11, .nextBytes 0,
      .seedv [1, 2, 3]], i.constructs = false) := by decide

/-- CommandFrame: a command that draws on a seeded block, one that does not, and one on an unseeded block. -/
theorem witness_frame :
    (∃ t, exec (.nextBytes 9) seedA = .next t ∧ Instr.constructs (.nextBytes 9) = false) ∧
    (∃ t, exec .exportState seedA = .next t ∧ Instr.drawCount .exportState = 0) ∧
    (∃ t, exec .nextRaw State.reset = .next t ∧ State.reset.seeded = false) :=
  ⟨⟨_, rfl, rfl⟩, ⟨_, rfl, rfl⟩, ⟨_, rfl, rfl⟩⟩

/-- UnseededWordsAreUnobservable: two states that differ, and that a host cannot tell apart. -/
theorem witness_unobservable :
    { State.reset with gen := ⟨1, 2, 3, 4⟩ } ≠ State.reset ∧
    { State.reset with gen := ⟨1, 2, 3, 4⟩ }.hostView = State.reset.hostView := by decide

/-- ResetLeavesUnseededAndEmpty, and the reset clauses of SeededFlagRule and UnseededWordsAreUnobservable. -/
theorem witness_reset_event : { seedA with input := [Input.reset] }.input = Input.reset :: [] := rfl

/-- ResponseStreamStaysLegal: a state with responses in its channel, and a step from it that adds one. -/
theorem witness_invariant :
    ({ seedA with output := [0x0001000000000001, 7] } : State).Inv ∧
    ∃ t, step (sent { seedA with output := [0x0001000000000001, 7] } [0x1000000000000000]) = .next t :=
  ⟨⟨[⟨.ok, .u64, 1, [7]⟩], by decide, by decide⟩, ⟨_, rfl⟩⟩

end Sys2Proof.Tests
end

/-! The 64-bit primitives of `00_scope.md` R4: what each computes on the denoted number and bit by bit. -/
namespace Sys2Proof.Machine

@[simp] theorem toNat_mul64 (a c : Word) : (mul64 a c).toNat = a.toNat * c.toNat % 2 ^ 64 :=
  BitVec.toNat_mul a c

@[simp] theorem toNat_shl64 (a : Word) (n : Nat) : (shl64 a n).toNat = a.toNat * 2 ^ n % 2 ^ 64 := by
  rw [shl64, BitVec.toNat_shiftLeft, Nat.shiftLeft_eq]

@[simp] theorem toNat_shr64 (a : Word) (n : Nat) : (shr64 a n).toNat = a.toNat / 2 ^ n := by
  rw [shr64, BitVec.toNat_ushiftRight, Nat.shiftRight_eq_div_pow]

/-- The two shifts of R4 make up the library's rotation. -/
theorem rotl64_eq_rotateLeft (a : Word) {n : Nat} (hn : n < 64) : rotl64 a n = a.rotateLeft n := by
  rw [BitVec.rotateLeft_def, Nat.mod_eq_of_lt hn]
  rfl

/-- No bit is lost by a rotation: a bit that stays below bit 64 moves up by `n`, and a bit that would leave at the top
comes back at the bottom. -/
theorem getLsbD_rotl64_add_mod (a : Word) {n i : Nat} (hn : n < 64) (hi : i < 64) :
    (rotl64 a n).getLsbD ((i + n) % 64) = a.getLsbD i := by
  rw [rotl64_eq_rotateLeft a hn, BitVec.getLsbD_rotateLeft, Nat.mod_eq_of_lt hn]
  by_cases hwrap : i + n < 64
  · simp [Nat.mod_eq_of_lt hwrap, hwrap]
  · have hpos : (i + n) % 64 = i + n - 64 := by omega
    have hlow : i + n - 64 < n := by omega
    have hback : 64 - n + (i + n - 64) = i := by omega
    simp [hpos, hlow, hback]

/-- Settles O1: the number each primitive denotes, and where a rotation puts each bit. -/
theorem primitivesAreModular : Obligations.PrimitivesAreModular :=
  ⟨toNat_mul64,
    fun a n _ => toNat_shl64 a n,
    fun a n _ => toNat_shr64 a n,
    fun _ _ _ _ => rfl,
    fun a _ _ _ hn hi => getLsbD_rotl64_add_mod a hn hi,
    fun _ _ _ => BitVec.getLsbD_xor,
    fun _ _ _ => BitVec.getLsbD_or,
    fun _ _ _ => BitVec.getLsbD_and⟩

end Sys2Proof.Machine

/-! What each command does, by its three classes: it constructs, it is a SEEDV of a wrong length, or it needs `SEEDED`
(`10_state.md` R12, `30_encoding.md` R36). -/
namespace Sys2Proof.Machine

/-! ## The three classes of commands -/

/-- `n` draws, and a response that depends on the state words before them alone (R36): the effect that EXPORT and every
NEXT_* command have on a seeded block. -/
def drawAndAnswer (n : Nat) (answer : GenState → Response) (s : State) : State :=
  (s.withGen (advanceBy n s.gen)).respond (answer s.gen)

@[simp] theorem drawAndAnswer_gen (n : Nat) (answer : GenState → Response) (s : State) :
    (drawAndAnswer n answer s).gen = advanceBy n s.gen := rfl
@[simp] theorem drawAndAnswer_seeded (n : Nat) (answer : GenState → Response) (s : State) :
    (drawAndAnswer n answer s).seeded = s.seeded := rfl
@[simp] theorem drawAndAnswer_input (n : Nat) (answer : GenState → Response) (s : State) :
    (drawAndAnswer n answer s).input = s.input := rfl
@[simp] theorem drawAndAnswer_output (n : Nat) (answer : GenState → Response) (s : State) :
    (drawAndAnswer n answer s).output = s.output ++ (answer s.gen).beats := rfl
@[simp] theorem drawAndAnswer_free (n : Nat) (answer : GenState → Response) (s : State) :
    (drawAndAnswer n answer s).free = s.free := rfl

/-- The response of NEXT_BYTES, from the state words before its draws (R75). -/
def bytesAnswer (n : Word32) (g : GenState) : Response :=
  ⟨.ok, .bytes, n, (fillBytes (drawsForBytes n.toNat) n.toNat g).1⟩

theorem drawBytes_eq_drawAndAnswer (n : Word32) :
    drawBytes n = drawAndAnswer (drawsForBytes n.toNat) (bytesAnswer n) := by
  funext s
  simp only [drawBytes, drawAndAnswer, bytesAnswer, fillBytes_state]

theorem execSeedv_of_length_ne {payload : List Word} (h : payload.length ≠ 4) (s : State) :
    execSeedv payload s = .next (s.raiseErr .errSeedLen) := by
  unfold execSeedv
  split
  · exact absurd rfl h
  · rfl

/-- Every command is of one of three classes, and its class says what it does in every state. -/
theorem exec_cases (i : Instr) :
    (i.constructs = true ∧ i.needsSeeded = false ∧
      ∃ w0 w1 w2 w3, ∀ s, exec i s = .next (construct w0 w1 w2 w3 s)) ∨
    (i.constructs = false ∧ i.needsSeeded = false ∧ i.drawCount = 0 ∧
      ∀ s, exec i s = .next (s.raiseErr .errSeedLen)) ∨
    (i.constructs = false ∧ i.needsSeeded = true ∧
      ∃ answer, ∀ s, exec i s = needSeeded (drawAndAnswer i.drawCount answer) s) := by
  cases i with
  | seed w0 w1 w2 w3 => exact .inl ⟨rfl, rfl, w0, w1, w2, w3, fun _ => rfl⟩
  | seedv payload =>
    by_cases h : payload.length = 4
    · match payload, h with
      | [w0, w1, w2, w3], _ => exact .inl ⟨rfl, rfl, w0, w1, w2, w3, fun _ => rfl⟩
    · exact .inr (.inl ⟨beq_false_of_ne h, rfl, rfl, execSeedv_of_length_ne h⟩)
  | nextBytes n =>
    exact .inr (.inr ⟨rfl, rfl, bytesAnswer n, fun s => congrArg (needSeeded · s) (drawBytes_eq_drawAndAnswer n)⟩)
  | exportState => exact .inr (.inr ⟨rfl, rfl, fun g => ⟨.ok, .state, 4, [g.s0, g.s1, g.s2, g.s3]⟩, fun _ => rfl⟩)
  | nextRaw => exact .inr (.inr ⟨rfl, rfl, fun g => ⟨.ok, .u64, 1, [(advance g).1]⟩, fun _ => rfl⟩)
  | nextI32 => exact .inr (.inr ⟨rfl, rfl, fun g => ⟨.ok, .i32, 1, [zext64 (highHalf (advance g).1)]⟩, fun _ => rfl⟩)
  | nextI64 => exact .inr (.inr ⟨rfl, rfl, fun g => ⟨.ok, .i64, 1, [(advance g).1]⟩, fun _ => rfl⟩)
  | nextF32 =>
    exact .inr (.inr ⟨rfl, rfl, fun g => ⟨.ok, .f32, 1, [zext64 (f32Bits (k24 (advance g).1))]⟩, fun _ => rfl⟩)
  | nextF64 => exact .inr (.inr ⟨rfl, rfl, fun g => ⟨.ok, .f64, 1, [f64Bits (k53 (advance g).1)]⟩, fun _ => rfl⟩)

/-- A command sets `SEEDED` exactly if it constructs, and never clears it (R12). -/
theorem exec_next_seeded {i : Instr} {s t : State} (h : exec i s = .next t) :
    t.seeded = (s.seeded || i.constructs) := by
  obtain ⟨hc, -, w0, w1, w2, w3, he⟩ | ⟨hc, -, -, he⟩ | ⟨hc, -, answer, he⟩ := exec_cases i
  · cases (he s).symm.trans h
    simp [hc]
  · cases (he s).symm.trans h
    simp [hc]
  · cases hs : s.seeded with
    | true =>
      cases (needSeeded_of_seeded hs _).symm.trans ((he s).symm.trans h)
      simp [hs]
    | false =>
      cases (needSeeded_of_unseeded hs _).symm.trans ((he s).symm.trans h)
      simp [hs, hc]

/-- A command that needs `SEEDED` answers `ERR_UNSEEDED` without it (R83). -/
theorem exec_of_unseeded {i : Instr} {s : State} (hn : i.needsSeeded = true) (hs : s.seeded = false) :
    exec i s = .next (s.raiseErr .errUnseeded) := by
  obtain ⟨-, hn', -⟩ | ⟨-, hn', -⟩ | ⟨-, -, answer, he⟩ := exec_cases i
  · exact absurd (hn.symm.trans hn') Bool.noConfusion
  · exact absurd (hn.symm.trans hn') Bool.noConfusion
  · rw [he, needSeeded_of_unseeded hs]

/-- On a seeded block, a command that does not construct advances the state words once per draw (R57). -/
theorem exec_advances_of_seeded {i : Instr} {s : State} (hs : s.seeded = true) (hc : i.constructs = false) :
    ∃ t, exec i s = .next t ∧ t.seeded = true ∧ t.gen = advanceBy i.drawCount s.gen := by
  obtain ⟨hc', -⟩ | ⟨-, -, hd, he⟩ | ⟨-, -, answer, he⟩ := exec_cases i
  · exact absurd (hc.symm.trans hc') Bool.noConfusion
  · exact ⟨_, he s, hs, by rw [hd]; rfl⟩
  · exact ⟨_, (he s).trans (needSeeded_of_seeded hs _), hs, rfl⟩

/-! ## The reset event -/

/-- At a command boundary the step takes the reset event (R95). -/
theorem step_of_reset {s : State} {rest : List Input} (h : s.input = Input.reset :: rest) :
    step s = .next (s.withInput rest).resetEvent := by
  simp only [step, h, fetch]

theorem step_of_reset_unseeded {s : State} {rest : List Input} (h : s.input = Input.reset :: rest) :
    ∃ t, step s = .next t ∧ t.seeded = false :=
  ⟨_, step_of_reset h, rfl⟩

/-! ## The flag -/

/-- A step that sets `SEEDED` has run a command that constructs. -/
theorem step_sets_seeded {s t : State} (h : step s = .next t) (hs : s.seeded = false) (ht : t.seeded = true) :
    ∃ beats rest i, s.input = beats.map Input.beat ++ rest ∧ decode beats = .ok i ∧ i.constructs = true := by
  obtain rfl | ⟨rest, -, rfl⟩ | ⟨w, payload, rest, i, -, hq, hd, he⟩ | ⟨w, payload, rest, e, -, -, -, rfl⟩ :=
    step_cases h
  · simp [hs] at ht
  · simp at ht
  · have hset := exec_next_seeded he
    exact ⟨w :: payload, rest, i, hq, hd, by simpa [hs, ht] using hset.symm⟩
  · simp [hs] at ht

/-- A step that clears `SEEDED` has taken the reset event. -/
theorem step_clears_seeded {s t : State} (h : step s = .next t) (hs : s.seeded = true) (ht : t.seeded = false) :
    ∃ rest, s.input = Input.reset :: rest := by
  obtain rfl | ⟨rest, hq, -⟩ | ⟨w, payload, rest, i, -, -, -, he⟩ | ⟨w, payload, rest, e, -, -, -, rfl⟩ :=
    step_cases h
  · simp [hs] at ht
  · exact ⟨rest, hq⟩
  · have hkept := exec_next_seeded he
    simp [hs, ht] at hkept
  · simp [hs] at ht

/-- Settles O23: a command's effect on the flag from `exec_next_seeded`, a step's by what the step can be. -/
theorem seededFlagRule : Obligations.SeededFlagRule :=
  ⟨rfl,
    fun _ _ _ => exec_next_seeded,
    fun _ _ => step_sets_seeded,
    fun _ _ => step_clears_seeded,
    fun _ _ => step_of_reset_unseeded,
    fun _ s hn hs => (exec_of_unseeded hn hs).trans (congrArg _ (raiseErr_errUnseeded s))⟩

end Sys2Proof.Machine

/-! The state words after a seed (`10_state.md` R13). -/
namespace Sys2Proof.Machine

theorem totalDraws_cons (i : Instr) (is : List Instr) : totalDraws (i :: is) = i.drawCount + totalDraws is := by
  simp [totalDraws]

/-- Commands that do not construct advance the words of a seeded block once per draw they make in all. -/
theorem runInstrs_advances_of_seeded {is : List Instr} {s : State} (hs : s.seeded = true)
    (hc : ∀ i ∈ is, i.constructs = false) :
    ∃ t, runInstrs is s = .next t ∧ t.seeded = true ∧ t.gen = advanceBy (totalDraws is) s.gen := by
  induction is generalizing s with
  | nil => exact ⟨s, rfl, hs, rfl⟩
  | cons i is ih =>
    obtain ⟨hci, hcis⟩ := List.forall_mem_cons.mp hc
    obtain ⟨u, hu, hus, hug⟩ := exec_advances_of_seeded hs hci
    obtain ⟨t, ht, hts, htg⟩ := ih hus hcis
    refine ⟨t, (runInstrs_cons hu is).trans ht, hts, ?_⟩
    rw [htg, hug, totalDraws_cons, advanceBy_add]

/-- Settles O42: SEED and a four-word SEEDV leave the seed's words in a seeded block, and the list advances them. -/
theorem stateIsAdvancePowerOfSeed : Obligations.StateIsAdvancePowerOfSeed := by
  intro w0 w1 w2 w3 is s hc
  have hrun := runInstrs_advances_of_seeded (construct_seeded s w0 w1 w2 w3) hc
  exact ⟨hrun, hrun⟩

end Sys2Proof.Machine

/-! What a host can observe (`10_state.md` R19): equal host views are kept by every operation, hence by every step. -/
namespace Sys2Proof.Machine

/-! ## Equal host views -/

/-- Two states look alike to the host when they agree on all but the counter and, while unseeded, the state words. -/
theorem hostView_eq_iff {s t : State} : s.hostView = t.hostView ↔
    s.seeded = t.seeded ∧ s.input = t.input ∧ s.output = t.output ∧ (s.seeded = true → s.gen = t.gen) := by
  simp only [State.hostView, State.mk.injEq, and_true]
  constructor
  · rintro ⟨hg, hb, hi, ho⟩
    exact ⟨hb, hi, ho, fun hs => by simpa [hs, ← hb] using hg⟩
  · rintro ⟨hb, hi, ho, hg⟩
    refine ⟨?_, hb, hi, ho⟩
    rw [← hb]
    split
    · exact hg ‹_›
    · rfl

section
variable {s t : State} (h : s.hostView = t.hostView)
include h

theorem hostView_withInput (q : List Input) : (s.withInput q).hostView = (t.withInput q).hostView := by
  obtain ⟨hb, -, ho, hg⟩ := hostView_eq_iff.mp h
  exact hostView_eq_iff.mpr ⟨hb, rfl, ho, hg⟩

theorem hostView_respond (r : Response) : (s.respond r).hostView = (t.respond r).hostView := by
  obtain ⟨hb, hi, ho, hg⟩ := hostView_eq_iff.mp h
  exact hostView_eq_iff.mpr ⟨hb, hi, congrArg (· ++ r.beats) ho, hg⟩

theorem hostView_raiseErr (code : Status) : (s.raiseErr code).hostView = (t.raiseErr code).hostView :=
  hostView_respond h _

/-- The words the reset event leaves are no more observable than those it overwrites. -/
theorem hostView_resetEvent : s.resetEvent.hostView = t.resetEvent.hostView := by
  obtain ⟨-, hi, ho, -⟩ := hostView_eq_iff.mp h
  exact hostView_eq_iff.mpr ⟨rfl, hi, ho, fun hs => absurd hs Bool.noConfusion⟩

/-- Construction overwrites all four words without reading them. -/
theorem hostView_construct (w0 w1 w2 w3 : Word) :
    (construct w0 w1 w2 w3 s).hostView = (construct w0 w1 w2 w3 t).hostView := by
  obtain ⟨-, hi, ho, -⟩ := hostView_eq_iff.mp h
  exact hostView_eq_iff.mpr ⟨rfl, hi, by simp [ho], fun _ => rfl⟩

/-- A seeded block's words are part of the host's view, so draws from them agree. -/
theorem hostView_drawAndAnswer (hs : s.seeded = true) (n : Nat) (answer : GenState → Response) :
    (drawAndAnswer n answer s).hostView = (drawAndAnswer n answer t).hostView := by
  obtain ⟨hb, hi, ho, hg⟩ := hostView_eq_iff.mp h
  exact hostView_eq_iff.mpr ⟨hb, hi, by simp [ho, hg hs], fun _ => by simp [hg hs]⟩

/-! ## Commands, steps and runs -/

theorem exec_sameToHost (i : Instr) : SameToHost (exec i s) (exec i t) := by
  obtain ⟨-, -, w0, w1, w2, w3, he⟩ | ⟨-, -, -, he⟩ | ⟨-, -, answer, he⟩ := exec_cases i
  · rw [he, he]
    exact hostView_construct h w0 w1 w2 w3
  · rw [he, he]
    exact hostView_raiseErr h _
  · obtain ⟨hb, -⟩ := hostView_eq_iff.mp h
    rw [he, he]
    cases hs : s.seeded with
    | true =>
      rw [needSeeded_of_seeded hs, needSeeded_of_seeded (hb.symm.trans hs)]
      exact hostView_drawAndAnswer h hs _ answer
    | false =>
      rw [needSeeded_of_unseeded hs, needSeeded_of_unseeded (hb.symm.trans hs)]
      exact hostView_raiseErr h _

/-- The two blocks fetch the same from their channels, and do the same with it. -/
theorem step_sameToHost : SameToHost (step s) (step t) := by
  obtain ⟨-, hi, -⟩ := hostView_eq_iff.mp h
  unfold step
  rw [hi]
  cases fetch t.input with
  | wait => exact h
  | reset rest => exact hostView_resetEvent (hostView_withInput h rest)
  | brokenByReset => exact rfl
  | frame beats rest =>
    have hrest := hostView_withInput h rest
    dsimp only
    cases decode beats with
    | ok i => exact exec_sameToHost hrest i
    | error e => exact hostView_raiseErr hrest .errIllegal

end

/-- Outcomes a host cannot tell apart are two next states of equal view or the same refusal: there is no fault (R87). -/
theorem sameToHost_cases {o o' : Host.Outcome State Fault Refusal} (h : SameToHost o o') :
    (∃ s t, o = .next s ∧ o' = .next t ∧ s.hostView = t.hostView) ∨ ∃ r, o = .refused r ∧ o' = .refused r :=
  match o, o', h with
  | .next s, .next t, hst => .inl ⟨s, t, rfl, rfl, hst⟩
  | .refused r, .refused _, rfl => .inr ⟨r, rfl, rfl⟩
  | .next _, .refused _, hst => hst.elim
  | .refused _, .next _, hst => hst.elim

/-- The relation that one step keeps is kept by every run. -/
theorem run_sameToHost {s t : State} (h : s.hostView = t.hostView) (k : Nat) :
    SameToHost (core.run k s) (core.run k t) := by
  induction k generalizing s t with
  | zero => exact h
  | succ k ih =>
    obtain ⟨s', t', hs, ht, hst⟩ | ⟨r, hs, ht⟩ := sameToHost_cases (step_sameToHost h)
    · rw [core_run_next hs, core_run_next ht]
      exact ih hst
    · rw [core_run_refused hs, core_run_refused ht]
      exact rfl

/-- Settles O44: equal host views are a relation every step keeps, by induction on the number of steps. -/
theorem unseededWordsAreUnobservable : Obligations.UnseededWordsAreUnobservable :=
  ⟨rfl, fun _ _ => step_of_reset_unseeded, fun k _ _ h => run_sameToHost h k⟩

end Sys2Proof.Machine

/-! The one legal response of every command (`30_encoding.md` R38 to R40). -/
namespace Sys2Proof.Machine

/-! ## The values that a response carries -/

theorem toNat_zext64 (v : Word32) : (zext64 v).toNat = v.toNat :=
  BitVec.toNat_setWidth_of_le (by decide)

/-- Cutting a draw to `c` bytes leaves a number of `8 * c` bits (R26). -/
theorem lowBytes_toNat_lt (c : Nat) (r : Word) : (lowBytes c r).toNat < 2 ^ (8 * c) := by
  have hmask : (BitVec.ofNat 64 (2 ^ (8 * c) - 1)).toNat ≤ 2 ^ (8 * c) - 1 := by
    rw [BitVec.toNat_ofNat]
    exact Nat.mod_le _ _
  have hpos : 0 < 2 ^ (8 * c) := Nat.two_pow_pos _
  have hand : (lowBytes c r).toNat ≤ _ := (BitVec.toNat_and ..).trans_le Nat.and_le_right
  omega

/-- The unused lanes of the last data beat of NEXT_BYTES are zero (R26, R75). -/
theorem fillBytes_getLastD_lt {n : Nat} (g : GenState) (hn : n % 8 ≠ 0) :
    ((fillBytes (drawsForBytes n) n g).1.getLastD 0).toNat < 2 ^ (8 * (n % 8)) := by
  have hlast : drawsForBytes n - 1 = n / 8 := by unfold drawsForBytes; omega
  have hlt : n / 8 < drawsForBytes n := by unfold drawsForBytes; omega
  have hleft : min 8 (n - 8 * (n / 8)) = n % 8 := by omega
  rw [List.getLastD_eq_getLast?, List.getLast?_eq_getElem?, fillBytes_length, hlast, fillBytes_getElem? _ _ _ _ hlt,
    hleft]
  exact lowBytes_toNat_lt _ _

/-- R66: a nonzero `k` has an exponent field from 103 to 126. -/
theorem f32Bits_range {k : BitVec 24} (hk : k ≠ 0) :
    0x33800000 ≤ (f32Bits k).toNat ∧ (f32Bits k).toNat ≤ 0x3F7FFFFF := by
  have hp : k.toNat.log2 < 24 := (Nat.log2_lt (BitVec.toNat_ne.mp hk)).mpr k.isLt
  have hf : k.toNat * 2 ^ (23 - k.toNat.log2) % 2 ^ 23 < 2 ^ 23 := Nat.mod_lt _ (Nat.two_pow_pos 23)
  simp only [f32Bits, if_neg hk, BitVec.toNat_ofNat]
  omega

/-- R70: a nonzero `k` has an exponent field from 970 to 1022. -/
theorem f64Bits_range {k : BitVec 53} (hk : k ≠ 0) :
    0x3CA0000000000000 ≤ (f64Bits k).toNat ∧ (f64Bits k).toNat ≤ 0x3FEFFFFFFFFFFFFF := by
  have hp : k.toNat.log2 < 53 := (Nat.log2_lt (BitVec.toNat_ne.mp hk)).mpr k.isLt
  have hf : k.toNat * 2 ^ (52 - k.toNat.log2) % 2 ^ 52 < 2 ^ 52 := Nat.mod_lt _ (Nat.two_pow_pos 52)
  simp only [f64Bits, if_neg hk, BitVec.toNat_ofNat]
  omega

/-! ## Legal responses -/

theorem legal_i32 (v : Word32) : Response.legal ⟨.ok, .i32, 1, [zext64 v]⟩ = true := by
  have hv := v.isLt
  simpa [Response.legal, toNat_zext64] using hv

theorem legal_f32 (k : BitVec 24) : Response.legal ⟨.ok, .f32, 1, [zext64 (f32Bits k)]⟩ = true := by
  by_cases hk : k = 0
  · subst hk
    decide
  · have hrange := f32Bits_range hk
    simp [Response.legal, toNat_zext64, hrange]

theorem legal_f64 (k : BitVec 53) : Response.legal ⟨.ok, .f64, 1, [f64Bits k]⟩ = true := by
  by_cases hk : k = 0
  · subst hk
    decide
  · have hrange := f64Bits_range hk
    simp [Response.legal, hrange]

theorem legal_bytesAnswer (n : Word32) (g : GenState) : (bytesAnswer n g).legal = true := by
  have hlen : (fillBytes (drawsForBytes n.toNat) n.toNat g).1.length = (n.toNat + 7) / 8 := fillBytes_length _ _ _
  by_cases hn : n.toNat % 8 = 0
  · simp [Response.legal, bytesAnswer, hlen, hn]
  · have hlast := fillBytes_getLastD_lt g hn
    simp only [Response.legal, bytesAnswer, hlen, hlast, decide_true, Bool.or_true, beq_self_eq_true, Bool.and_self]

/-! ## One legal response per command -/

/-- `t` is `s` with one legal response more and the same command channel (R27, R38). -/
def AnswersLegally (s t : State) : Prop :=
  t.input = s.input ∧ ∃ r : Response, r.legal = true ∧ t.output = s.output ++ r.beats

theorem respond_answersLegally {s u : State} {r : Response} (hi : u.input = s.input) (ho : u.output = s.output)
    (hr : r.legal = true) : AnswersLegally s (u.respond r) :=
  ⟨hi, r, hr, congrArg (· ++ r.beats) ho⟩

theorem raiseErr_answersLegally (s : State) {code : Status} (hc : code ≠ .ok) :
    AnswersLegally s (s.raiseErr code) := by
  refine respond_answersLegally rfl rfl ?_
  cases code with
  | ok => exact absurd rfl hc
  | errIllegal => rfl
  | errSeedLen => rfl
  | errUnseeded => rfl

theorem construct_answersLegally (w0 w1 w2 w3 : Word) (s : State) : AnswersLegally s (construct w0 w1 w2 w3 s) :=
  respond_answersLegally rfl rfl rfl

theorem needSeeded_answersLegally {effect : State → State} {s : State} (h : AnswersLegally s (effect s)) :
    ∃ t, needSeeded effect s = .next t ∧ AnswersLegally s t := by
  cases hs : s.seeded with
  | true => exact ⟨_, needSeeded_of_seeded hs effect, h⟩
  | false => exact ⟨_, needSeeded_of_unseeded hs effect, raiseErr_answersLegally s Status.noConfusion⟩

theorem drawOne_answersLegally {kind : Kind} {derive : Word → Word}
    (h : ∀ d, Response.legal ⟨.ok, kind, 1, [derive d]⟩ = true) (s : State) :
    ∃ t, needSeeded (drawOne kind derive) s = .next t ∧ AnswersLegally s t := by
  have hanswer : AnswersLegally s (drawOne kind derive s) := respond_answersLegally rfl rfl (h _)
  exact needSeeded_answersLegally hanswer

/-- Every command, in every state, answers with exactly one legal response (R27). -/
theorem exec_answersLegally (i : Instr) (s : State) : ∃ t, exec i s = .next t ∧ AnswersLegally s t := by
  cases i with
  | seed w0 w1 w2 w3 => exact ⟨_, rfl, construct_answersLegally w0 w1 w2 w3 s⟩
  | seedv payload =>
    by_cases h : payload.length = 4
    · match payload, h with
      | [w0, w1, w2, w3], _ => exact ⟨_, rfl, construct_answersLegally w0 w1 w2 w3 s⟩
    · exact ⟨_, execSeedv_of_length_ne h s, raiseErr_answersLegally s Status.noConfusion⟩
  | exportState =>
    rw [exec, execExport]
    exact needSeeded_answersLegally (respond_answersLegally rfl rfl rfl)
  | nextRaw => exact drawOne_answersLegally (fun _ => rfl) s
  | nextI32 => exact drawOne_answersLegally (fun d => legal_i32 (highHalf d)) s
  | nextI64 => exact drawOne_answersLegally (fun _ => rfl) s
  | nextF32 => exact drawOne_answersLegally (fun d => legal_f32 (k24 d)) s
  | nextF64 => exact drawOne_answersLegally (fun d => legal_f64 (k53 d)) s
  | nextBytes n =>
    rw [exec, execNextBytes]
    exact needSeeded_answersLegally (respond_answersLegally rfl rfl (legal_bytesAnswer n s.gen))

end Sys2Proof.Machine

/-! Decoding the frame of a well-formed instruction (`30_encoding.md` sections 1 to 3). -/
namespace Sys2Proof

/-- The per-instruction family FrameLength, put together (R34). -/
theorem encode_isFrame (i : Instr) : Laws.FrameLength.Statement i :=
  match i with
  | .seed w0 w1 w2 w3 => Laws.FrameLength.seed w0 w1 w2 w3
  | .seedv payload => Laws.FrameLength.seedv payload
  | .exportState => Laws.FrameLength.exportState
  | .nextRaw => Laws.FrameLength.nextRaw
  | .nextI32 => Laws.FrameLength.nextI32
  | .nextI64 => Laws.FrameLength.nextI64
  | .nextF32 => Laws.FrameLength.nextF32
  | .nextF64 => Laws.FrameLength.nextF64
  | .nextBytes n => Laws.FrameLength.nextBytes n

theorem isFrame_of_encode {i : Instr} {w : Word} {payload : List Word} (hi : i.wellFormed = true)
    (he : encode i = w :: payload) : IsFrame w payload := by
  obtain ⟨w', payload', he', hf⟩ := encode_isFrame i hi
  obtain ⟨rfl, rfl⟩ := List.cons.inj (he.symm.trans he')
  exact hf

theorem decode_of_frame {w : Word} {payload : List Word} {c : Command} (hf : IsFrame w payload)
    (hc : commandOf w = some c) : decode (w :: payload) = withOperands w payload c := by
  simp only [decode, if_pos hf, hc]

theorem decode_encode (i : Instr) (hi : i.wellFormed = true) : decode (encode i) = .ok i := by
  cases i with
  | seedv payload =>
    have hc : commandOf (commandWord 0x02 (BitVec.ofNat 32 payload.length)) = some .seedv := by
      simp [commandOf_eq_fields]
    exact decode_of_frame (isFrame_of_encode hi rfl) hc
  | nextBytes n =>
    have hc : commandOf (commandWord 0x15 n) = some .nextBytes := by simp [commandOf_eq_fields]
    rw [encode, decode_of_frame (isFrame_of_encode hi rfl) hc, withOperands, argOf_commandWord]
  | _ => rfl

end Sys2Proof

/-! A run over whole frames (`20_memory.md` R27, `00_scope.md` R3). -/
namespace Sys2Proof.Machine

/-! ## One step on one frame -/

/-- The step on a whole frame that decodes is the command, with the frame taken out of the channel. -/
theorem step_of_decode {s : State} {w : Word} {payload : List Word} {rest : List Input} {i : Instr}
    (hf : IsFrame w payload) (hq : s.input = (w :: payload).map Input.beat ++ rest)
    (hd : decode (w :: payload) = .ok i) : step s = exec i (s.withInput rest) := by
  simp only [step, fetch_of_frame hf hq, hd]

/-- The step on a whole frame that does not decode answers `ERR_ILLEGAL` (R81). -/
theorem step_of_decode_error {s : State} {w : Word} {payload : List Word} {rest : List Input} {e : Reject}
    (hf : IsFrame w payload) (hq : s.input = (w :: payload).map Input.beat ++ rest)
    (hd : decode (w :: payload) = .error e) : step s = .next ((s.withInput rest).raiseErr .errIllegal) := by
  simp only [step, fetch_of_frame hf hq, hd]

/-- The step on the frame of a well-formed instruction is that instruction. -/
theorem step_of_encode {s : State} {i : Instr} {rest : List Input} (hi : i.wellFormed = true)
    (hq : s.input = (encode i).map Input.beat ++ rest) : step s = exec i (s.withInput rest) := by
  obtain ⟨w, payload, he, hf⟩ := encode_isFrame i hi
  exact step_of_decode hf (he ▸ hq) (he ▸ decode_encode i hi)

/-- The step on any whole frame, legal or not, consumes exactly it and answers with one legal response (R27). -/
theorem step_of_frame_answersLegally {s : State} {w : Word} {payload : List Word} {rest : List Input}
    (hf : IsFrame w payload) (hq : s.input = (w :: payload).map Input.beat ++ rest) :
    ∃ t, step s = .next t ∧ AnswersLegally (s.withInput rest) t := by
  cases hd : decode (w :: payload) with
  | ok i =>
    rw [step_of_decode hf hq hd]
    exact exec_answersLegally i _
  | error e => exact ⟨_, step_of_decode_error hf hq hd, raiseErr_answersLegally _ Status.noConfusion⟩

/-! ## Runs -/

/-- The machine on the frames of well-formed commands is `exec` folded over the commands: no command sees the frames
behind its own. -/
theorem run_of_encodes {is : List Instr} {s : State} {rest : List Input} (his : ∀ i ∈ is, i.wellFormed = true)
    (hq : s.input = (is.flatMap encode).map Input.beat ++ rest) :
    core.run is.length s = runInstrs is (s.withInput rest) := by
  induction is generalizing s with
  | nil =>
    have hs : s.withInput rest = s := by rw [State.withInput, ← show s.input = rest from hq]
    rw [hs]
    rfl
  | cons i is ih =>
    obtain ⟨hi, his'⟩ := List.forall_mem_cons.mp his
    have hq' : s.input = (encode i).map Input.beat ++ ((is.flatMap encode).map Input.beat ++ rest) := by
      rw [hq, List.flatMap_cons, List.map_append, List.append_assoc]
    obtain ⟨t, ht, hinput, -⟩ := exec_answersLegally i (s.withInput rest)
    have hstep : step s = .next (t.withInput ((is.flatMap encode).map Input.beat ++ rest)) :=
      (step_of_encode hi hq').trans (exec_withInput ht _)
    have hkeep : t.withInput rest = t := by rw [State.withInput, ← show t.input = rest from hinput]
    have htail := ih (s := t.withInput ((is.flatMap encode).map Input.beat ++ rest)) his' rfl
    rw [runInstrs_cons ht, ← hkeep]
    exact (core_run_next hstep is.length).trans htail

/-- The beats of a list of frames, one after another. -/
abbrev beatsOf (fs : List (Word × List Word)) : List Word := fs.flatMap fun f => f.1 :: f.2

/-- On whole frames, legal or not, every `k` steps consume the first `k` frames and emit the first `k` of the responses,
one legal response per frame. -/
theorem run_of_frames {fs : List (Word × List Word)} {s : State} {rest : List Input} (hfs : ∀ f ∈ fs, IsFrame f.1 f.2)
    (hq : s.input = (beatsOf fs).map Input.beat ++ rest) :
    ∃ rs : List Response, rs.length = fs.length ∧ (∀ r ∈ rs, r.legal = true) ∧
      ∀ k, k ≤ fs.length → ∃ t, core.run k s = .next t ∧
        t.input = (beatsOf (fs.drop k)).map Input.beat ++ rest ∧
        t.output = s.output ++ (rs.take k).flatMap Response.beats := by
  induction fs generalizing s with
  | nil =>
    refine ⟨[], rfl, by simp, fun k hk => ?_⟩
    obtain rfl : k = 0 := Nat.le_zero.mp hk
    exact ⟨s, rfl, hq, by simp⟩
  | cons f fs ih =>
    obtain ⟨hf, hfs'⟩ := List.forall_mem_cons.mp hfs
    have hq' : s.input = (f.1 :: f.2).map Input.beat ++ ((beatsOf fs).map Input.beat ++ rest) := by
      rw [hq, beatsOf, List.flatMap_cons, List.map_append, List.append_assoc]
    obtain ⟨u, hstep, hinput, r, hr, houtput⟩ := step_of_frame_answersLegally hf hq'
    obtain ⟨rs, hlen, hlegal, hrun⟩ := ih hfs' hinput
    refine ⟨r :: rs, congrArg (· + 1) hlen, List.forall_mem_cons.mpr ⟨hr, hlegal⟩, fun k hk => ?_⟩
    cases k with
    | zero => exact ⟨s, rfl, hq, by simp⟩
    | succ k =>
      obtain ⟨t, ht, hti, hto⟩ := hrun k (Nat.le_of_succ_le_succ hk)
      refine ⟨t, (core_run_next hstep k).trans ht, hti, ?_⟩
      rw [hto, houtput, List.take_succ_cons, List.flatMap_cons, List.append_assoc, State.withInput_output]

/-- Settles O15: by induction on the commands, and on the frames, from what one step does on one frame. -/
theorem runOverFramesIsFoldOfExec : Obligations.RunOverFramesIsFoldOfExec :=
  ⟨fun _ _ _ his hq => run_of_encodes his hq, fun _ _ _ hfs hq => run_of_frames hfs hq⟩

end Sys2Proof.Machine

/-! The layout of the response header, and the response to a whole frame (`30_encoding.md` R38). -/
namespace Sys2Proof.Machine

theorem extractLsb'_header_status (r : Response) : r.header.extractLsb' 56 8 = r.status.code :=
  calc r.header.extractLsb' 56 8
    _ = (r.status.code ++ r.kind.code ++ 0#16).extractLsb' 24 8 := BitVec.extractLsb'_append_eq_of_le (by decide)
    _ = (r.status.code ++ r.kind.code).extractLsb' 8 8 := BitVec.extractLsb'_append_eq_of_le (by decide)
    _ = r.status.code := BitVec.extractLsb'_append_eq_left

theorem extractLsb'_header_kind (r : Response) : r.header.extractLsb' 48 8 = r.kind.code :=
  calc r.header.extractLsb' 48 8
    _ = (r.status.code ++ r.kind.code ++ 0#16).extractLsb' 16 8 := BitVec.extractLsb'_append_eq_of_le (by decide)
    _ = (r.status.code ++ r.kind.code).extractLsb' 0 8 := BitVec.extractLsb'_append_eq_of_le (by decide)
    _ = r.kind.code := BitVec.extractLsb'_append_eq_right

theorem extractLsb'_header_zeros (r : Response) : r.header.extractLsb' 32 16 = 0 :=
  calc r.header.extractLsb' 32 16
    _ = (r.status.code ++ r.kind.code ++ 0#16).extractLsb' 0 16 := BitVec.extractLsb'_append_eq_of_le (by decide)
    _ = 0 := BitVec.extractLsb'_append_eq_right

theorem extractLsb'_header_len (r : Response) : r.header.extractLsb' 0 32 = r.len :=
  BitVec.extractLsb'_append_eq_right

/-- Settles O16: the header's four fields, and the one legal response of `step_of_frame_answersLegally`. -/
theorem eachFrameGetsOneLegalResponse : Obligations.EachFrameGetsOneLegalResponse := by
  refine ⟨fun r => ⟨extractLsb'_header_status r, extractLsb'_header_kind r, extractLsb'_header_zeros r,
    extractLsb'_header_len r, rfl⟩, fun s w p rest hf hq => ?_⟩
  obtain ⟨t, hstep, -, r, hlegal, houtput⟩ := step_of_frame_answersLegally hf hq
  exact ⟨t, r, hstep, hlegal, houtput⟩

end Sys2Proof.Machine

/-! The fields of a command word as numbers, and the frame length read off them (`30_encoding.md` R33, R34). -/
namespace Sys2Proof

theorem toNat_opOf (w : Word) : (opOf w).toNat = w.toNat / 2 ^ 56 := by
  rw [opOf, BitVec.extractLsb'_toNat, Nat.shiftRight_eq_div_pow]
  omega

theorem toNat_argOf (w : Word) : (argOf w).toNat = w.toNat % 2 ^ 32 :=
  BitVec.extractLsb'_toNat 0 32 w

theorem payloadBeats_eq_toNat (w : Word) : payloadBeats w =
    if w.toNat / 2 ^ 56 = 0x01 then 4 else if w.toNat / 2 ^ 56 = 0x02 then w.toNat % 2 ^ 32 else 0 := by
  have hop (op : Byte) : opOf w = op ↔ w.toNat / 2 ^ 56 = op.toNat := by
    rw [← BitVec.toNat_inj, toNat_opOf]
  simp only [payloadBeats, hop, toNat_argOf]
  rfl

/-- Settles O7: the length by the fields as numbers, the consumption by `step_of_frame_answersLegally`. -/
theorem frameLengthComesFromCommandWord : Obligations.FrameLengthComesFromCommandWord := by
  refine ⟨payloadBeats_eq_toNat, fun s w p rest hf hq => ?_⟩
  obtain ⟨t, hstep, hinput, -⟩ := Machine.step_of_frame_answersLegally hf hq
  exact ⟨t, hstep, hinput⟩

end Sys2Proof

/-! The illegal command words (`30_encoding.md` R42, `60_exceptions.md` R81). -/
namespace Sys2Proof

/-- The opcodes of the rows that leave `ARG` free (R35). -/
def argOpcodes : List Byte := [0x02, 0x15]

/-- The opcodes of the rows that fix `ARG` at zero (R35). -/
def plainOpcodes : List Byte := [0x01, 0x03, 0x10, 0x11, 0x12, 0x13, 0x14]

/-- `RSV` is zero, and the opcode is one that takes an argument, or a plain one with `ARG = 0`. -/
def LegalFields (w : Word) : Prop :=
  rsvOf w = 0 ∧ (opOf w ∈ argOpcodes ∨ opOf w ∈ plainOpcodes ∧ argOf w = 0)

theorem not_mem_plainOpcodes_of_mem_argOpcodes : ∀ op ∈ argOpcodes, op ∉ plainOpcodes := by decide

theorem mem_knownOpcodes_iff (op : Byte) : op ∈ [0x01, 0x02, 0x03, 0x10, 0x11, 0x12, 0x13, 0x14, 0x15] ↔
    op ∈ argOpcodes ∨ op ∈ plainOpcodes := by
  have hperm : [0x01, 0x02, 0x03, 0x10, 0x11, 0x12, 0x13, 0x14, 0x15].Perm (argOpcodes ++ plainOpcodes) := by decide
  exact hperm.mem_iff.trans List.mem_append

/-- R42's three conditions, with the opcodes of the table sorted by their two kinds. -/
theorem illegalWord_iff_fields (w : Word) : IllegalWord w = true ↔
    ¬ (opOf w ∈ argOpcodes ∨ opOf w ∈ plainOpcodes) ∨ rsvOf w ≠ 0 ∨ argOf w ≠ 0 ∧ opOf w ∈ plainOpcodes := by
  rw [← mem_knownOpcodes_iff]
  simp only [IllegalWord, Bool.or_eq_true, Bool.and_eq_true, Bool.not_eq_true', ← Bool.not_eq_true,
    List.contains_iff_mem, bne_iff_ne, or_assoc]
  rfl

theorem illegalWord_iff_not_legalFields (w : Word) : IllegalWord w = true ↔ ¬ LegalFields w := by
  have hdisjoint := not_mem_plainOpcodes_of_mem_argOpcodes (opOf w)
  rw [illegalWord_iff_fields, LegalFields]
  tauto

/-- Each row's mask and pattern by the opcodes: the table fixes `ARG` for the plain opcodes alone (R35). -/
theorem opcodeTable_masks_perm : (opcodeTable.map fun r => (r.mask, r.pattern)).Perm
    (argOpcodes.map (fun op => (maskArg, commandWord op 0)) ++
      plainOpcodes.map (fun op => (maskWhole, commandWord op 0))) := by decide

theorem exists_row_iff_legalFields (w : Word) :
    (∃ r ∈ opcodeTable, w &&& r.mask = r.pattern) ↔ LegalFields w :=
  calc (∃ r ∈ opcodeTable, w &&& r.mask = r.pattern)
    _ ↔ ∃ m ∈ opcodeTable.map fun r => (r.mask, r.pattern), w &&& m.1 = m.2 := by
      simp only [List.mem_map, exists_exists_and_eq_and]
    _ ↔ (∃ op ∈ argOpcodes, w &&& maskArg = commandWord op 0) ∨
        ∃ op ∈ plainOpcodes, w &&& maskWhole = commandWord op 0 := by
      simp only [opcodeTable_masks_perm.mem_iff, List.mem_append, or_and_right, exists_or, List.mem_map,
        exists_exists_and_eq_and]
    _ ↔ opOf w ∈ argOpcodes ∧ rsvOf w = 0 ∨ opOf w ∈ plainOpcodes ∧ rsvOf w = 0 ∧ argOf w = 0 := by
      simp only [and_maskArg_eq, and_maskWhole_eq, existsAndEq, true_and]
    _ ↔ LegalFields w := by
      rw [LegalFields]
      tauto

theorem commandOf_eq_none_iff (w : Word) : commandOf w = none ↔ ∀ r ∈ opcodeTable, w &&& r.mask ≠ r.pattern := by
  simp only [commandOf, Option.map_eq_none_iff, List.find?_eq_none, matchesRow, beq_iff_eq, ne_eq]

theorem illegalWord_iff_forall_row_ne (w : Word) :
    IllegalWord w = true ↔ ∀ r ∈ opcodeTable, w &&& r.mask ≠ r.pattern := by
  rw [illegalWord_iff_not_legalFields, ← exists_row_iff_legalFields]
  push Not
  rfl

theorem illegalWord_iff_commandOf (w : Word) : IllegalWord w = true ↔ commandOf w = none :=
  (illegalWord_iff_forall_row_ne w).trans (commandOf_eq_none_iff w).symm

theorem commandOf_seed {w : Word} (h : commandOf w = some .seed) : opOf w = 0x01 := by
  have hrow : ∀ r ∈ opcodeTable, r.command = .seed → r = ⟨.seed, commandWord 0x01 0, maskWhole⟩ := by decide
  obtain ⟨r, hfind, hr⟩ := Option.map_eq_some_iff.mp h
  obtain rfl := hrow r (List.mem_of_find?_eq_some hfind) hr
  have hmatch : matchesRow w ⟨.seed, commandWord 0x01 0, maskWhole⟩ = true := List.find?_some hfind
  exact ((and_maskWhole_eq w 0x01).mp (beq_iff_eq.mp hmatch)).1

/-- A whole frame of a legal word is a command: SEED's word asks for the four beats that it takes. -/
theorem decode_ok_of_commandOf {w : Word} {payload : List Word} {c : Command} (hf : IsFrame w payload)
    (hc : commandOf w = some c) : ∃ i, decode (w :: payload) = .ok i := by
  rw [decode_of_frame hf hc]
  cases c with
  | seed =>
    have hlen : payload.length = 4 := by rw [hf, payloadBeats, if_pos (commandOf_seed hc)]
    match payload, hlen with
    | [w0, w1, w2, w3], _ => exact ⟨_, rfl⟩
  | _ => exact ⟨_, rfl⟩

theorem decode_error_of_commandOf {w : Word} {payload : List Word} (hf : IsFrame w payload)
    (hc : commandOf w = none) : decode (w :: payload) = .error (whyIllegal w) := by
  simp only [decode, if_pos hf, hc]

/-- Settles O10: a word is illegal exactly when it selects no row, and then its frame does not decode. -/
theorem illegalWordsAnswerErrIllegal : Obligations.IllegalWordsAnswerErrIllegal := by
  refine ⟨illegalWord_iff_forall_row_ne, fun s w p rest hw hf hq => ?_, fun w p hw hf => ?_⟩
  · have hd := decode_error_of_commandOf hf ((illegalWord_iff_commandOf w).mp hw)
    exact (Machine.step_of_decode_error hf hq hd).trans (congrArg _ (Machine.raiseErr_errIllegal _))
  · cases hc : commandOf w with
    | none => exact absurd (hw.symm.trans ((illegalWord_iff_commandOf w).mpr hc)) Bool.noConfusion
    | some c => exact decode_ok_of_commandOf hf hc

end Sys2Proof

/-! `Advance()` in closed form, and the all-zero state (`40_core_generator.md` R50, R51). -/
namespace Sys2Proof.Machine

theorem scramble_eq_rotateLeft (x : Word) : scramble x = (x * 5).rotateLeft 7 * 9 :=
  congrArg (· * 9) (rotl64_eq_rotateLeft (x * 5) (by decide))

/-- The step form of R50 overwrites the words one after another; over the old words each new one is a xor of three of
them, or a rotation of a xor of two. -/
theorem nextGen_eq_closedForm (a0 a1 a2 a3 : Word) : nextGen ⟨a0, a1, a2, a3⟩ =
    ⟨a0 ^^^ a1 ^^^ a3, a0 ^^^ a1 ^^^ a2, a0 ^^^ a2 ^^^ (a1 <<< 17), (a1 ^^^ a3).rotateLeft 45⟩ := by
  have h0 : a0 ^^^ (a3 ^^^ a1) = a0 ^^^ a1 ^^^ a3 := by ac_rfl
  have h1 : a1 ^^^ (a2 ^^^ a0) = a0 ^^^ a1 ^^^ a2 := by ac_rfl
  have h2 : a2 ^^^ a0 ^^^ shl64 a1 17 = a0 ^^^ a2 ^^^ (a1 <<< 17) := by rw [BitVec.xor_comm a2, shl64]
  have h3 : rotl64 (a3 ^^^ a1) 45 = (a1 ^^^ a3).rotateLeft 45 := by
    rw [rotl64_eq_rotateLeft _ (by decide), BitVec.xor_comm]
  exact GenState.ext h0 h1 h2 h3

/-- Settles O2: the draw and the four new words, each in closed form. -/
theorem advanceHasClosedForm : Obligations.AdvanceHasClosedForm :=
  fun a0 a1 a2 a3 => Prod.ext (scramble_eq_rotateLeft a1) (nextGen_eq_closedForm a0 a1 a2 a3)

/-! ## EXPORT on a seeded block (R55) -/

theorem exec_exportState_of_seeded {s : State} (hs : s.seeded = true) : exec .exportState s =
    .next { s with output := s.output ++ [0x0007000000000004, s.gen.s0, s.gen.s1, s.gen.s2, s.gen.s3] } := by
  rw [exec, execExport, needSeeded_of_seeded hs, State.respond, Response.beats, header_state]

/-! ## The all-zero state -/

@[simp] theorem advance_zeroState : advance ⟨0, 0, 0, 0⟩ = (0, ⟨0, 0, 0, 0⟩) := by decide

@[simp] theorem advanceBy_zeroState (n : Nat) : advanceBy n ⟨0, 0, 0, 0⟩ = ⟨0, 0, 0, 0⟩ := by
  induction n with
  | zero => rfl
  | succ n ih => rw [advanceBy, advance_zeroState, ih]

theorem drawsFrom_zeroState (n : Nat) : drawsFrom n ⟨0, 0, 0, 0⟩ = List.replicate n 0 := by
  induction n with
  | zero => rfl
  | succ n ih => rw [drawsFrom, advance_zeroState, ih, List.replicate_succ]

/-- Every data beat of NEXT_BYTES is a cut zero draw. -/
theorem fillBytes_zeroState (q n : Nat) : (fillBytes q n ⟨0, 0, 0, 0⟩).1 = List.replicate q 0 := by
  induction q generalizing n with
  | zero => rfl
  | succ q ih =>
    have hcut : lowBytes (min 8 n) 0 = 0 := BitVec.zero_and
    simp only [fillBytes, advance_zeroState, hcut, ih, List.replicate_succ]

/-- `t` is `s` with one response frame more, of zero data beats alone. -/
def AnswersZeros (s t : State) : Prop :=
  ∃ h beats, t = { s with output := s.output ++ h :: List.replicate beats 0 }

section
variable {s : State} (hg : s.gen = ⟨0, 0, 0, 0⟩)
include hg

theorem drawOne_answersZeros (kind : Kind) {derive : Word → Word} (hd : derive 0 = 0) :
    AnswersZeros s (drawOne kind derive s) :=
  ⟨_, 1, by rw [drawOne_eq, hg, advance_zeroState, hd]; rfl⟩

theorem drawBytes_answersZeros (n : Word32) : AnswersZeros s (drawBytes n s) :=
  ⟨_, drawsForBytes n.toNat, by rw [drawBytes_eq, hg, advanceBy_zeroState, fillBytes_zeroState]⟩

/-- What a command that needs `SEEDED` derives from a zero draw is zero. -/
theorem exec_answersZeros {i : Instr} (hs : s.seeded = true) (hn : i.needsSeeded = true) :
    ∃ t, exec i s = .next t ∧ AnswersZeros s t := by
  cases i with
  | seed w0 w1 w2 w3 => cases hn
  | seedv payload => cases hn
  | exportState => exact ⟨_, exec_exportState_of_seeded hs, _, 4, by rw [hg]; rfl⟩
  | nextRaw => exact ⟨_, needSeeded_of_seeded hs _, drawOne_answersZeros hg .u64 rfl⟩
  | nextI32 => exact ⟨_, needSeeded_of_seeded hs _, drawOne_answersZeros hg .i32 (by decide)⟩
  | nextI64 => exact ⟨_, needSeeded_of_seeded hs _, drawOne_answersZeros hg .i64 rfl⟩
  | nextF32 => exact ⟨_, needSeeded_of_seeded hs _, drawOne_answersZeros hg .f32 (by decide)⟩
  | nextF64 => exact ⟨_, needSeeded_of_seeded hs _, drawOne_answersZeros hg .f64 (by decide)⟩
  | nextBytes n => exact ⟨_, needSeeded_of_seeded hs _, drawBytes_answersZeros hg n⟩

end

/-- Settles O3: the zero state is a fixed point that draws 0, by induction on the draws and by cases on the command; the
state `(1, 0, 0, 0)` draws 0 too. -/
theorem zeroStateDrawsZerosForEver : Obligations.ZeroStateDrawsZerosForEver := by
  refine ⟨fun g g' h1 => congrArg scramble h1, fun n => ⟨advanceBy_zeroState n, drawsFrom_zeroState n⟩,
    fun i s hs hg hn => ?_, ⟨⟨1, 0, 0, 0⟩, by decide, by decide⟩⟩
  obtain ⟨_, hexec, h, beats, rfl⟩ := exec_answersZeros hg hs hn
  exact ⟨h, beats, hexec⟩

/-- Settles O41: the state words after a command are those of `exec_advances_of_seeded`. -/
theorem eachDrawIsOneAdvance : Obligations.EachDrawIsOneAdvance :=
  fun _ _ hs hc => exec_advances_of_seeded hs hc

end Sys2Proof.Machine

/-! Illegal words of a known opcode, by their fields (`30_encoding.md` R34, R42), and the command word as a number
(R33). -/
namespace Sys2Proof

theorem illegalWord_of_rsvOf_ne {w : Word} (h : rsvOf w ≠ 0) : IllegalWord w = true :=
  (illegalWord_iff_fields w).mpr (.inr (.inl h))

theorem illegalWord_of_plain {w : Word} (hop : opOf w ∈ plainOpcodes) (h : rsvOf w ≠ 0 ∨ argOf w ≠ 0) :
    IllegalWord w = true :=
  (illegalWord_iff_fields w).mpr (.inr (h.imp_right fun harg => ⟨harg, hop⟩))

theorem payloadBeats_seed {w : Word} (hop : opOf w = 0x01) : payloadBeats w = 4 := by
  rw [payloadBeats, if_pos hop]

theorem payloadBeats_seedv {w : Word} (hop : opOf w = 0x02) : payloadBeats w = (argOf w).toNat := by
  rw [payloadBeats, hop, if_neg (by decide), if_pos rfl]

theorem payloadBeats_of_ne {w : Word} (h1 : opOf w ≠ 0x01) (h2 : opOf w ≠ 0x02) : payloadBeats w = 0 := by
  rw [payloadBeats, if_neg h1, if_neg h2]

/-- With `RSV = 0` the word is the number `OP * 2^56 + ARG` (R33). -/
theorem toNat_commandWord (op : Byte) (arg : Word32) :
    (commandWord op arg).toNat = op.toNat * 2 ^ 56 + arg.toNat := by
  have hop : (op ++ 0#24).toNat = op.toNat <<< 24 := (BitVec.toNat_append op 0#24).trans (Nat.or_zero _)
  have h : (commandWord op arg).toNat = _ := BitVec.toNat_append (op ++ 0#24) arg
  rw [h, ← Nat.shiftLeft_add_eq_or_of_lt arg.isLt, hop, ← Nat.shiftLeft_add, Nat.shiftLeft_eq]

/-- The word of a SEEDV whose words can be counted in `ARG` (R37). -/
theorem commandWord_seedv {k : Nat} (hk : k < 2 ^ 32) :
    commandWord 0x02 (BitVec.ofNat 32 k) = BitVec.ofNat 64 (0x02 * 2 ^ 56 + k) := by
  have hop : (0x02 : Byte).toNat = 0x02 := rfl
  apply BitVec.eq_of_toNat_eq
  rw [toNat_commandWord, hop, BitVec.toNat_ofNat, BitVec.toNat_ofNat]
  omega

end Sys2Proof

/-! The core generator's commands: SEED, SEEDV, EXPORT and NEXT_RAW (`40_core_generator.md` R52, R53, R55, R56). -/
namespace Sys2Proof.Machine

/-- A whole frame of an illegal word answers `ERR_ILLEGAL`, and nothing else happens (R42, R81). -/
theorem step_of_illegalWord {s : State} {w : Word} {payload : List Word} {rest : List Input}
    (hw : IllegalWord w = true) (hf : IsFrame w payload) (hq : s.input = (w :: payload).map Input.beat ++ rest) :
    step s = .next { s with input := rest, output := s.output ++ [0x0100000000000000] } := by
  obtain ⟨-, hstep, -⟩ := illegalWordsAnswerErrIllegal
  exact hstep s w payload rest hw hf hq

/-- Settles O19: `construct_eq` for the effect, the illegal forms by their fields. -/
theorem seedSetsStateVerbatim : Obligations.SeedSetsStateVerbatim := by
  refine fun w0 w1 w2 w3 => ⟨fun s => congrArg Host.Outcome.next (construct_eq w0 w1 w2 w3 s), rfl,
    fun s w rest hop h hq => ?_⟩
  have hplain : opOf w ∈ plainOpcodes := by rw [show opOf w = 0x01 from hop]; decide
  have hframe : IsFrame w [w0, w1, w2, w3] := (payloadBeats_seed hop).symm
  exact step_of_illegalWord (illegalWord_of_plain hplain h) hframe hq

/-- Settles O20: `construct_eq` for four words, `execSeedv_of_length_ne` for any other count. -/
theorem seedvTakesExactlyFourWords : Obligations.SeedvTakesExactlyFourWords := by
  refine ⟨fun w0 w1 w2 w3 s => congrArg Host.Outcome.next (construct_eq w0 w1 w2 w3 s),
    fun p s hp => (execSeedv_of_length_ne hp s).trans (congrArg _ (raiseErr_errSeedLen s)),
    fun p hp => congrArg (· :: p) (commandWord_seedv hp), fun s w p rest hop hrsv hlen hq => ?_⟩
  have hframe : IsFrame w p := hlen.trans (payloadBeats_seedv hop).symm
  exact step_of_illegalWord (illegalWord_of_rsvOf_ne hrsv) hframe hq

/-- What the commands without an operand have in common follows from their opcode's row: `ARG` fixed at zero, no
payload, and `SEEDED` needed (R35, R36). -/
theorem plainCommandRule {i : Instr} {op : Byte} {word : Word} (hi : encode i = [word])
    (hn : i.needsSeeded = true) (hplain : op ∈ plainOpcodes) (hop : op ≠ 0x01) : PlainCommandRule i op word := by
  refine ⟨hi, fun s hs => (exec_of_unseeded hn hs).trans (congrArg _ (raiseErr_errUnseeded s)),
    fun s w rest hw h hq => ?_⟩
  obtain rfl : opOf w = op := hw
  have hseedv : opOf w ≠ 0x02 := fun h2 => absurd (h2 ▸ hplain) (by decide)
  have hframe : IsFrame w [] := (payloadBeats_of_ne hop hseedv).symm
  exact step_of_illegalWord (illegalWord_of_plain hplain h) hframe hq

/-- Settles O21: EXPORT is a command without an operand, and with a generator it answers the words. -/
theorem exportReturnsTheFourWords : Obligations.ExportReturnsTheFourWords :=
  ⟨plainCommandRule (by decide) rfl (by decide) (by decide), fun _ hs => exec_exportState_of_seeded hs⟩

/-- Settles O25: NEXT_RAW is a command without an operand, and its one draw is the data beat. -/
theorem nextRawReturnsTheDraw : Obligations.NextRawReturnsTheDraw := by
  refine ⟨plainCommandRule (by decide) rfl (by decide) (by decide), fun s hs => ?_⟩
  rw [exec, execNextRaw, needSeeded_of_seeded hs, drawOne_eq, header_u64]

end Sys2Proof.Machine

/-! The integers that the draws denote, and the integer derivers NEXT_I32 and NEXT_I64 (`41_integer_derivers.md` R60 to
R63). -/
namespace Sys2Proof.Machine

/-! ## The high half of a draw, and two's complement -/

theorem toNat_highHalf (r : Word) : (highHalf r).toNat = r.toNat / 2 ^ 32 := by
  have hr : r.toNat / 2 ^ 32 < 2 ^ 32 := Nat.div_lt_of_lt_mul r.isLt
  rw [highHalf, BitVec.extractLsb'_toNat, Nat.shiftRight_eq_div_pow, Nat.mod_eq_of_lt hr]

/-- Zero extension of the high half is the logical shift (R40, R60). -/
theorem zext64_highHalf (r : Word) : zext64 (highHalf r) = r >>> 32 :=
  BitVec.eq_of_toNat_eq (by
    rw [toNat_zext64, toNat_highHalf, BitVec.toNat_ushiftRight, Nat.shiftRight_eq_div_pow])

theorem setWidth_ushiftRight_eq_highHalf (r : Word) : (r >>> 32).setWidth 32 = highHalf r := by
  rw [← zext64_highHalf, zext64, BitVec.setWidth_setWidth_of_le _ (by decide), BitVec.setWidth_eq]

/-- The sign bit of the high half is the sign bit of the draw. -/
theorem msb_highHalf (r : Word) : (highHalf r).msb = r.getLsbD 63 := by
  simp [highHalf, BitVec.msb_eq_getLsbD_last]

theorem toInt_eq_ite_getLsbD (r : Word) :
    r.toInt = if r.getLsbD 63 = true then (r.toNat : Int) - 2 ^ 64 else (r.toNat : Int) := by
  rw [BitVec.toInt_eq_msb_cond, BitVec.msb_eq_getLsbD_last]
  rfl

theorem toInt_highHalf_eq_ite_getLsbD (r : Word) : (highHalf r).toInt =
    if r.getLsbD 63 = true then ((r.toNat / 2 ^ 32 : Nat) : Int) - 2 ^ 32 else ((r.toNat / 2 ^ 32 : Nat) : Int) := by
  rw [BitVec.toInt_eq_msb_cond, msb_highHalf, toNat_highHalf]
  rfl

/-- Both readings take off their power of two for the same bit, and `2 ^ 64` is a multiple of `2 ^ 32` (R63). -/
theorem toInt_highHalf (r : Word) : (highHalf r).toInt = r.toInt / 2 ^ 32 := by
  rw [toInt_highHalf_eq_ite_getLsbD, toInt_eq_ite_getLsbD]
  split <;> omega

/-! ## The commands on a seeded block -/

/-- On a seeded block the command makes one draw and answers the beats `answer` of it. -/
def AnswersOneDraw (i : Instr) (answer : Word → List Word) : Prop :=
  ∀ s : State, s.seeded = true → exec i s =
    .next { s with gen := (advance s.gen).2, output := s.output ++ answer (advance s.gen).1 }

theorem nextRaw_answersOneDraw : AnswersOneDraw .nextRaw fun r => [0x0001000000000001, r] := by
  obtain ⟨-, hexec⟩ := nextRawReturnsTheDraw
  exact hexec

theorem nextI32_answersOneDraw : AnswersOneDraw .nextI32 fun r => [(0x0002000000000001 : Word), r >>> 32] := by
  intro s hs
  rw [exec, execNextI32, needSeeded_of_seeded hs, drawOne_eq, header_i32, zext64_highHalf]

theorem nextI64_answersOneDraw : AnswersOneDraw .nextI64 fun r => [0x0003000000000001, r] := by
  intro s hs
  rw [exec, execNextI64, needSeeded_of_seeded hs, drawOne_eq, header_i64]

/-- `k` such commands answer the next `k` draws, one after another: nothing of a draw is kept for a later one. -/
theorem runInstrs_replicate_of_answersOneDraw {i : Instr} {answer : Word → List Word} (hi : AnswersOneDraw i answer)
    (k : Nat) {s : State} (hs : s.seeded = true) : runInstrs (List.replicate k i) s =
      .next { s with
        gen := advanceBy k s.gen
        output := s.output ++ (drawsFrom k s.gen).flatMap answer } := by
  induction k generalizing s with
  | zero => simp [runInstrs, advanceBy, drawsFrom]
  | succ k ih =>
    have htail := ih (s := { s with gen := (advance s.gen).2, output := s.output ++ answer (advance s.gen).1 }) hs
    rw [List.replicate_succ, runInstrs_cons (hi s hs), htail, advanceBy, drawsFrom, List.flatMap_cons,
      List.append_assoc]

/-! ## The statements -/

/-- Settles O26: NEXT_I32 is a command without an operand that answers the high half of its one draw. -/
theorem nextI32ReturnsTheHighHalf : Obligations.NextI32ReturnsTheHighHalf :=
  ⟨plainCommandRule (by decide) rfl (by decide) (by decide), nextI32_answersOneDraw, fun r =>
    (congrArg BitVec.toInt (setWidth_ushiftRight_eq_highHalf r)).trans (toInt_highHalf_eq_ite_getLsbD r)⟩

/-- Settles O27: both commands answer one draw each, so both runs answer the same draws. -/
theorem i32StreamIsHighHalvesOfRawStream : Obligations.I32StreamIsHighHalvesOfRawStream :=
  fun k _ hs => ⟨runInstrs_replicate_of_answersOneDraw nextI32_answersOneDraw k hs,
    runInstrs_replicate_of_answersOneDraw nextRaw_answersOneDraw k hs⟩

/-- Settles O28: NEXT_I64 is a command without an operand that answers its one draw. -/
theorem nextI64ReturnsTheDraw : Obligations.NextI64ReturnsTheDraw :=
  ⟨plainCommandRule (by decide) rfl (by decide) (by decide), nextI64_answersOneDraw, toInt_eq_ite_getLsbD⟩

/-- Settles O29: the three commands answer the same draw, and `toInt_highHalf` is the floor of its signed reading. -/
theorem i32IsArithmeticHighHalfOfI64 : Obligations.I32IsArithmeticHighHalfOfI64 := by
  intro s hs
  have hbeat : (advance s.gen).1 >>> 32 = (highHalf (advance s.gen).1).setWidth 64 := (zext64_highHalf _).symm
  have hfloor : (highHalf (advance s.gen).1).toInt = ⌊((advance s.gen).1.toInt : ℚ) / 2 ^ 32⌋ := by
    rw [toInt_highHalf]
    exact_mod_cast (Rat.floor_intCast_div_natCast (advance s.gen).1.toInt (2 ^ 32)).symm
  exact ⟨highHalf (advance s.gen).1, (advance s.gen).1, _, _, _, nextI32_answersOneDraw s hs, by rw [← hbeat],
    nextI64_answersOneDraw s hs, rfl, nextRaw_answersOneDraw s hs, rfl, hfloor⟩

end Sys2Proof.Machine

/-! The float derivers NEXT_F32 and NEXT_F64, and the numbers that their patterns denote (`42_float_derivers.md` R66 to
R74). -/
namespace Sys2Proof.Machine

/-! ## What the two formats have in common: a pattern whose fraction field is `m` bits wide -/

theorem toNat_extractLsb'_exponent {w m n e f : Nat} {b : BitVec w} (hb : b.toNat = e * 2 ^ m + f) (hf : f < 2 ^ m)
    (he : e < 2 ^ n) : (b.extractLsb' m n).toNat = e := by
  have hdiv : (e * 2 ^ m + f) / 2 ^ m = e := Nat.div_eq_of_lt_le (Nat.le_add_right _ _) (by rw [Nat.succ_mul]; omega)
  rw [BitVec.extractLsb'_toNat, hb, Nat.shiftRight_eq_div_pow, hdiv, Nat.mod_eq_of_lt he]

theorem toNat_extractLsb'_fraction {w m e f : Nat} {b : BitVec w} (hb : b.toNat = e * 2 ^ m + f) (hf : f < 2 ^ m) :
    (b.extractLsb' 0 m).toNat = f := by
  rw [BitVec.extractLsb'_toNat, hb, Nat.shiftRight_zero, Nat.mul_add_mod', Nat.mod_eq_of_lt hf]

theorem toNat_extractLsb'_of_lt {w m : Nat} {b : BitVec w} (n : Nat) (hb : b.toNat < 2 ^ m) :
    (b.extractLsb' m n).toNat = 0 := by
  rw [BitVec.extractLsb'_toNat, Nat.shiftRight_eq_div_pow, Nat.div_eq_of_lt hb, Nat.zero_mod]

/-- Shifted up until its top bit `p` stands at bit `m`, `k` is the hidden bit and the fraction field below it. -/
theorem mul_two_pow_eq_hidden_add_fraction {k p m : Nat} (hlow : 2 ^ p ≤ k) (hhigh : k < 2 ^ (p + 1)) (hp : p ≤ m) :
    k * 2 ^ (m - p) = 2 ^ m + k * 2 ^ (m - p) % 2 ^ m := by
  have hm : 2 ^ p * 2 ^ (m - p) = 2 ^ m := pow_mul_pow_sub 2 hp
  have hge : 2 ^ m ≤ k * 2 ^ (m - p) := hm ▸ Nat.mul_le_mul_right _ hlow
  have hlt : k * 2 ^ (m - p) < 2 ^ (p + 1) * 2 ^ (m - p) := Nat.mul_lt_mul_of_pos_right hhigh (Nat.two_pow_pos _)
  rw [pow_succ, mul_right_comm, hm] at hlt
  rw [Nat.mod_eq_sub_mod hge, Nat.mod_eq_of_lt (by omega)]
  omega

/-- The significand of the pattern is `k / 2 ^ p`, so the exponent `p - n` makes the number `k / 2 ^ n`. -/
theorem two_zpow_mul_significand {k p m : Nat} (n : Nat) (hlow : 2 ^ p ≤ k) (hhigh : k < 2 ^ (p + 1)) (hp : p ≤ m) :
    (2 : ℚ) ^ ((p : ℤ) - n) * (1 + ((k * 2 ^ (m - p) % 2 ^ m : Nat) : ℚ) / 2 ^ m) = (k : ℚ) / 2 ^ n := by
  have hk : (k : ℚ) * 2 ^ (m - p) = 2 ^ m + ((k * 2 ^ (m - p) % 2 ^ m : Nat) : ℚ) :=
    mod_cast mul_two_pow_eq_hidden_add_fraction hlow hhigh hp
  have hm : (2 : ℚ) ^ m = 2 ^ p * 2 ^ (m - p) := by rw [← pow_add, Nat.add_sub_cancel' hp]
  have hsignificand : 1 + ((k * 2 ^ (m - p) % 2 ^ m : Nat) : ℚ) / 2 ^ m = (k : ℚ) / 2 ^ p := by
    rw [eq_sub_of_add_eq' hk.symm, hm]
    field_simp
    ring
  rw [hsignificand, zpow_sub₀ two_ne_zero, zpow_natCast, zpow_natCast]
  field_simp

/-- Numbers that are multiples of the same power of two tell the multipliers apart. -/
theorem eq_of_toNat_div_two_pow_eq {w n : Nat} {k k' : BitVec w}
    (h : (k.toNat : ℚ) / 2 ^ n = (k'.toNat : ℚ) / 2 ^ n) : k = k' :=
  BitVec.eq_of_toNat_eq (Nat.cast_injective ((div_left_inj' (pow_ne_zero n two_ne_zero)).mp h))

theorem toNat_div_two_pow_nonneg_and_lt_one {w : Nat} (k : BitVec w) :
    0 ≤ (k.toNat : ℚ) / 2 ^ w ∧ (k.toNat : ℚ) / 2 ^ w < 1 :=
  ⟨by positivity, (div_lt_one (by positivity)).mpr (mod_cast k.isLt)⟩

theorem log2_toNat_bounds {w : Nat} {k : BitVec w} (hk : k ≠ 0) :
    2 ^ k.toNat.log2 ≤ k.toNat ∧ k.toNat < 2 ^ (k.toNat.log2 + 1) :=
  (Nat.log2_eq_iff (BitVec.toNat_ne.mp hk)).mp rfl

theorem log2_toNat_lt {w : Nat} {k : BitVec w} (hk : k ≠ 0) : k.toNat.log2 < w :=
  (Nat.log2_lt (BitVec.toNat_ne.mp hk)).mpr k.isLt

/-- The top bit `p` of the rules R66 and R70 is the logarithm that the model takes. -/
theorem ne_zero_and_log2_toNat_eq {w p : Nat} {k : BitVec w} (hlow : 2 ^ p ≤ k.toNat)
    (hhigh : k.toNat < 2 ^ (p + 1)) : k ≠ 0 ∧ k.toNat.log2 = p := by
  have hpos : k.toNat ≠ 0 := ((Nat.two_pow_pos p).trans_le hlow).ne'
  exact ⟨BitVec.toNat_ne.mpr hpos, (Nat.log2_eq_iff hpos).mpr ⟨hlow, hhigh⟩⟩

/-! ## binary32 (R66) -/

/-- No bit is lost when the exponent and the fraction are put into the word. -/
theorem toNat_f32Bits {k : BitVec 24} (hk : k ≠ 0) :
    (f32Bits k).toNat =
      (103 + k.toNat.log2) * 2 ^ 23 + k.toNat * 2 ^ (23 - k.toNat.log2) % 2 ^ 23 := by
  have hp : k.toNat.log2 < 24 := log2_toNat_lt hk
  have hf : k.toNat * 2 ^ (23 - k.toNat.log2) % 2 ^ 23 < 2 ^ 23 := Nat.mod_lt _ (Nat.two_pow_pos 23)
  rw [f32Bits, if_neg hk, BitVec.toNat_ofNat]
  exact Nat.mod_eq_of_lt (by omega)

theorem binary32Value_of_fields {b : Word32} {e f : Nat} (hb : b.toNat = e * 2 ^ 23 + f) (hf : f < 2 ^ 23)
    (he : 1 ≤ e ∧ e ≤ 254) : binary32Value b = some (2 ^ ((e : ℤ) - 127) * (1 + (f : ℚ) / 2 ^ 23)) := by
  have hpos : b.toNat ≠ 0 := by omega
  have hne : b ≠ 0 := BitVec.toNat_ne.mpr hpos
  have hexp : (b.extractLsb' 23 8).toNat = e := toNat_extractLsb'_exponent hb hf (by omega)
  have hfrac : (b.extractLsb' 0 23).toNat = f := toNat_extractLsb'_fraction hb hf
  have hsign : (b.extractLsb' 31 1).toNat = 0 := toNat_extractLsb'_of_lt 1 (by omega)
  simp only [binary32Value, if_neg hne, hexp, hfrac, hsign, if_pos he, pow_zero, one_mul]

theorem binary32Value_f32Bits (k : BitVec 24) : binary32Value (f32Bits k) = some ((k.toNat : ℚ) / 2 ^ 24) := by
  by_cases hk : k = 0
  · subst hk
    simp [f32Bits, binary32Value]
  · obtain ⟨hlow, hhigh⟩ := log2_toNat_bounds hk
    have hp : k.toNat.log2 < 24 := log2_toNat_lt hk
    have hexp : ((103 + k.toNat.log2 : Nat) : ℤ) - 127 = (k.toNat.log2 : ℤ) - (24 : Nat) := by omega
    rw [binary32Value_of_fields (toNat_f32Bits hk) (Nat.mod_lt _ (Nat.two_pow_pos 23)) (by omega), hexp,
      two_zpow_mul_significand 24 hlow hhigh (by omega)]

/-- Settles O30: `toNat_f32Bits` for the fields, `binary32Value_f32Bits` for the number, which tells the `k` apart. -/
theorem f32BitsDenotesScaledInteger : Obligations.F32BitsDenotesScaledInteger := by
  refine ⟨by decide, by decide, by decide, fun k p hlow hhigh => ?_, binary32Value_f32Bits, fun k k' h => ?_,
    fun k => f32Bits_range⟩
  · obtain ⟨hk, rfl⟩ := ne_zero_and_log2_toNat_eq hlow hhigh
    exact toNat_f32Bits hk
  · have hvalue := congrArg binary32Value h
    rw [binary32Value_f32Bits, binary32Value_f32Bits] at hvalue
    exact eq_of_toNat_div_two_pow_eq (Option.some.inj hvalue)

/-! ## binary64 (R70) -/

/-- No bit is lost when the exponent and the fraction are put into the word. -/
theorem toNat_f64Bits {k : BitVec 53} (hk : k ≠ 0) :
    (f64Bits k).toNat =
      (970 + k.toNat.log2) * 2 ^ 52 + k.toNat * 2 ^ (52 - k.toNat.log2) % 2 ^ 52 := by
  have hp : k.toNat.log2 < 53 := log2_toNat_lt hk
  have hf : k.toNat * 2 ^ (52 - k.toNat.log2) % 2 ^ 52 < 2 ^ 52 := Nat.mod_lt _ (Nat.two_pow_pos 52)
  rw [f64Bits, if_neg hk, BitVec.toNat_ofNat]
  exact Nat.mod_eq_of_lt (by omega)

theorem binary64Value_of_fields {b : Word} {e f : Nat} (hb : b.toNat = e * 2 ^ 52 + f) (hf : f < 2 ^ 52)
    (he : 1 ≤ e ∧ e ≤ 2046) : binary64Value b = some (2 ^ ((e : ℤ) - 1023) * (1 + (f : ℚ) / 2 ^ 52)) := by
  have hpos : b.toNat ≠ 0 := by omega
  have hne : b ≠ 0 := BitVec.toNat_ne.mpr hpos
  have hexp : (b.extractLsb' 52 11).toNat = e := toNat_extractLsb'_exponent hb hf (by omega)
  have hfrac : (b.extractLsb' 0 52).toNat = f := toNat_extractLsb'_fraction hb hf
  have hsign : (b.extractLsb' 63 1).toNat = 0 := toNat_extractLsb'_of_lt 1 (by omega)
  simp only [binary64Value, if_neg hne, hexp, hfrac, hsign, if_pos he, pow_zero, one_mul]

theorem binary64Value_f64Bits (k : BitVec 53) : binary64Value (f64Bits k) = some ((k.toNat : ℚ) / 2 ^ 53) := by
  by_cases hk : k = 0
  · subst hk
    simp [f64Bits, binary64Value]
  · obtain ⟨hlow, hhigh⟩ := log2_toNat_bounds hk
    have hp : k.toNat.log2 < 53 := log2_toNat_lt hk
    have hexp : ((970 + k.toNat.log2 : Nat) : ℤ) - 1023 = (k.toNat.log2 : ℤ) - (53 : Nat) := by omega
    rw [binary64Value_of_fields (toNat_f64Bits hk) (Nat.mod_lt _ (Nat.two_pow_pos 52)) (by omega), hexp,
      two_zpow_mul_significand 53 hlow hhigh (by omega)]

/-- Settles O31: `toNat_f64Bits` for the fields, `binary64Value_f64Bits` for the number, which tells the `k` apart. -/
theorem f64BitsDenotesScaledInteger : Obligations.F64BitsDenotesScaledInteger := by
  refine ⟨by decide, by decide, by decide, fun k p hlow hhigh => ?_, binary64Value_f64Bits, fun k k' h => ?_,
    fun k => f64Bits_range⟩
  · obtain ⟨hk, rfl⟩ := ne_zero_and_log2_toNat_eq hlow hhigh
    exact toNat_f64Bits hk
  · have hvalue := congrArg binary64Value h
    rw [binary64Value_f64Bits, binary64Value_f64Bits] at hvalue
    exact eq_of_toNat_div_two_pow_eq (Option.some.inj hvalue)

/-! ## The commands on a seeded block -/

/-- Bits 31 to 8 of the high half are bits 63 to 40 of the draw (R67). -/
theorem k24_eq_extractLsb' (r : Word) : k24 r = r.extractLsb' 40 24 := by
  apply BitVec.eq_of_toNat_eq
  simp only [k24, highHalf, BitVec.extractLsb'_toNat, Nat.shiftRight_eq_div_pow]
  omega

theorem nextF32_answersOneDraw :
    AnswersOneDraw .nextF32 fun r => [0x0004000000000001, (f32Bits (r.extractLsb' 40 24)).setWidth 64] := by
  intro s hs
  rw [exec, execNextF32, needSeeded_of_seeded hs, drawOne_eq, header_f32, k24_eq_extractLsb', zext64]

theorem nextF64_answersOneDraw :
    AnswersOneDraw .nextF64 fun r => [0x0005000000000001, f64Bits (r.extractLsb' 11 53)] := by
  intro s hs
  rw [exec, execNextF64, needSeeded_of_seeded hs, drawOne_eq, header_f64, k53]

/-- Settles O32: NEXT_F32 is a command without an operand that answers the pattern of its one draw. -/
theorem nextF32ReturnsTopBitsScaled : Obligations.NextF32ReturnsTopBitsScaled :=
  ⟨plainCommandRule (by decide) rfl (by decide) (by decide), nextF32_answersOneDraw⟩

/-- Settles O34: NEXT_F64 is a command without an operand that answers the pattern of its one draw. -/
theorem nextF64ReturnsTopBitsScaled : Obligations.NextF64ReturnsTopBitsScaled :=
  ⟨plainCommandRule (by decide) rfl (by decide) (by decide), nextF64_answersOneDraw⟩

/-! ## The range of the answers (R68, R74) -/

/-- Settles O33: the answered pattern denotes the draw's top 24 bits over `2 ^ 24`. -/
theorem f32OutputLiesInUnitInterval : Obligations.F32OutputLiesInUnitInterval :=
  fun s hs => ⟨_, _, _, nextF32_answersOneDraw s hs, rfl, BitVec.isLt _, rfl, binary32Value_f32Bits _,
    toNat_div_two_pow_nonneg_and_lt_one _⟩

/-- The top 24 bits of a draw are its top 53 bits without the low 29. -/
theorem toNat_extractLsb'_40_eq_div (r : Word) :
    (r.extractLsb' 40 24).toNat = (r.extractLsb' 11 53).toNat / 2 ^ 29 := by
  simp only [BitVec.extractLsb'_toNat, Nat.shiftRight_eq_div_pow]
  omega

/-- The float32 of a draw is its float64 rounded toward zero to a multiple of `2 ^ -24`. -/
theorem f32_value_eq_floor_f64_value (r : Word) : ((r.extractLsb' 40 24).toNat : ℚ) / 2 ^ 24 =
    (⌊((r.extractLsb' 11 53).toNat : ℚ) / 2 ^ 53 * 2 ^ 24⌋ : ℚ) / 2 ^ 24 := by
  have hscale (x : ℚ) : x / 2 ^ 53 * 2 ^ 24 = x / (2 ^ 29 : Nat) := by push_cast; ring
  rw [hscale, Rat.floor_natCast_div_natCast, toNat_extractLsb'_40_eq_div]
  rfl

/-- Settles O35: the range as in O33, the truncation by `f32_value_eq_floor_f64_value`; the draw whose low 40 bits alone
are set loses almost a whole `2 ^ -24`. -/
theorem f64OutputLiesInUnitInterval : Obligations.F64OutputLiesInUnitInterval := by
  refine ⟨fun s hs => ⟨_, _, _, nextF64_answersOneDraw s hs, rfl, BitVec.isLt _, rfl, binary64Value_f64Bits _,
      toNat_div_two_pow_nonneg_and_lt_one _⟩,
    fun r => ⟨_, _, binary32Value_f32Bits _, binary64Value_f64Bits _, f32_value_eq_floor_f64_value r⟩,
    0x000000FFFFFFFFFF, _, _, binary32Value_f32Bits _, binary64Value_f64Bits _, ?_⟩
  have hk24 : ((0x000000FFFFFFFFFF : Word).extractLsb' 40 24).toNat = 0 := by decide
  have hk53 : ((0x000000FFFFFFFFFF : Word).extractLsb' 11 53).toNat = 2 ^ 29 - 1 := by decide
  rw [hk24, hk53]
  norm_num

end Sys2Proof.Machine

/-! The byte stream extractor NEXT_BYTES (`43_byte_stream.md` R75 to R79). -/
namespace Sys2Proof.Machine

/-! ## The draws of a request, and its data beats -/

/-- Only the last draw of a request can be cut, so a request of whole draws adds its draws to those of what follows. -/
theorem drawsForBytes_add {a : Nat} (ha : a % 8 = 0) (b : Nat) :
    drawsForBytes (a + b) = drawsForBytes a + drawsForBytes b := by
  unfold drawsForBytes
  omega

theorem drawsForBytes_of_mod_ne_zero {n : Nat} (hn : n % 8 ≠ 0) : drawsForBytes n = n / 8 + 1 := by
  unfold drawsForBytes
  omega

theorem le_eight_mul_drawsForBytes (n : Nat) : n ≤ 8 * drawsForBytes n := by
  unfold drawsForBytes
  omega

/-- Draw `j` is made by the `Advance()` that follows `j` others. -/
theorem drawsFrom_getD {j k : Nat} (h : j < k) (g : GenState) :
    (drawsFrom k g).getD j 0 = (advance (advanceBy j g)).1 := by
  induction k generalizing j g with
  | zero => omega
  | succ k ih =>
    cases j with
    | zero => rfl
    | succ j => exact ih (Nat.lt_of_succ_lt_succ h) _

/-- Cutting a draw to all its eight bytes leaves it whole. -/
theorem lowBytes_eight (r : Word) : lowBytes 8 r = r :=
  BitVec.and_allOnes

/-- Where the first `8 * p` bytes end, draw `p` begins: the loop of R75 splits there. -/
theorem fillBytes_add (p q n : Nat) (g : GenState) :
    (fillBytes (p + q) (8 * p + n) g).1 = (fillBytes p (8 * p) g).1 ++ (fillBytes q n (advanceBy p g)).1 := by
  induction p generalizing g with
  | zero => simp [fillBytes, advanceBy]
  | succ p ih =>
    have hcut : min 8 (8 * (p + 1) + n) = 8 := by omega
    have hcut' : min 8 (8 * (p + 1)) = 8 := by omega
    have hleft : 8 * (p + 1) + n - 8 = 8 * p + n := by omega
    have hleft' : 8 * (p + 1) - 8 = 8 * p := by omega
    rw [Nat.succ_add, fillBytes, fillBytes, advanceBy, hcut, hcut', hleft, hleft', ih, List.cons_append]

/-- A request split after whole draws has the data beats of its two parts (R77). -/
theorem fillBytes_drawsForBytes_add {a : Nat} (ha : a % 8 = 0) (b : Nat) (g : GenState) :
    (fillBytes (drawsForBytes (a + b)) (a + b) g).1 =
      (fillBytes (drawsForBytes a) a g).1 ++ (fillBytes (drawsForBytes b) b (advanceBy (drawsForBytes a) g)).1 := by
  have hwhole : a = 8 * drawsForBytes a := by unfold drawsForBytes; omega
  have hsplit := fillBytes_add (drawsForBytes a) (drawsForBytes b) b g
  rwa [← hwhole, ← drawsForBytes_add ha] at hsplit

/-- The byte buffer of a request is the bytes of its draws, cut to the request: the unused lanes of the last beat are
not in it (R26, R75). -/
theorem bufferOf_fillBytes (n : Nat) (g : GenState) :
    bufferOf n (fillBytes (drawsForBytes n) n g).1 =
      ((drawsFrom (drawsForBytes n) g).flatMap littleEndian).take n := by
  apply List.ext_getElem?
  intro m
  rw [bufferOf, List.getElem?_take, List.getElem?_take]
  split
  next hm =>
    have hbeat : m / 8 < drawsForBytes n := by unfold drawsForBytes; omega
    have hbyte : m < 8 * drawsForBytes n := hm.trans_le (le_eight_mul_drawsForBytes n)
    have hkept : m % 8 < min 8 (n - 8 * (m / 8)) := by omega
    rw [flatMap_littleEndian_getElem? _ _ (by rwa [fillBytes_length]),
      flatMap_littleEndian_getElem? _ _ (by rwa [drawsFrom_length]), List.getD_eq_getElem?_getD,
      fillBytes_getElem? _ _ _ _ hbeat, Option.getD_some, lowBytes_byte _ _ _ hkept (Nat.min_le_left _ _)]
  next => rfl

theorem bufferOf_fillBytes_length (n : Nat) (g : GenState) :
    (bufferOf n (fillBytes (drawsForBytes n) n g).1).length = n := by
  rw [bufferOf_fillBytes, List.length_take, flatMap_littleEndian_length, drawsFrom_length,
    Nat.min_eq_left (le_eight_mul_drawsForBytes n)]

theorem bufferOf_fillBytes_getElem? {n m : Nat} (hm : m < n) (g : GenState) :
    (bufferOf n (fillBytes (drawsForBytes n) n g).1)[m]? =
      some (((drawsFrom (drawsForBytes n) g).getD (m / 8) 0).extractLsb' (8 * (m % 8)) 8) := by
  have hbyte : m < 8 * drawsForBytes n := hm.trans_le (le_eight_mul_drawsForBytes n)
  rw [bufferOf_fillBytes, List.getElem?_take, if_pos hm,
    flatMap_littleEndian_getElem? _ _ (by rwa [drawsFrom_length])]

/-- Bytes 4 to 7 of a buffer of at least eight bytes are the high half of its first draw. -/
theorem bufferOf_fillBytes_drop_take {n : Nat} (hn : 8 ≤ n) (g : GenState) :
    ((bufferOf n (fillBytes (drawsForBytes n) n g).1).drop 4).take 4 =
      ((littleEndian (advance g).1).drop 4).take 4 := by
  obtain ⟨q, hq⟩ : ∃ q, drawsForBytes n = q + 1 := ⟨(n - 1) / 8, by unfold drawsForBytes; omega⟩
  have hcut : min 4 (n - 4) = 4 := by omega
  have hfour : 4 ≤ ((littleEndian (advance g).1).drop 4).length := by simp
  rw [bufferOf_fillBytes, hq, drawsFrom, List.flatMap_cons, List.drop_take, List.take_take, hcut,
    List.drop_append_of_le_length (by simp), List.take_append_of_le_length hfour]

/-- The high half of a draw is its bytes 4 to 7, the most significant last (R24, R60). -/
theorem toNat_ushiftRight_eq_bytes (r : Word) : (r >>> 32).toNat =
    (r.extractLsb' 32 8).toNat + 2 ^ 8 * (r.extractLsb' 40 8).toNat + 2 ^ 16 * (r.extractLsb' 48 8).toNat +
      2 ^ 24 * (r.extractLsb' 56 8).toNat := by
  have hr := r.isLt
  simp only [BitVec.toNat_ushiftRight, BitVec.extractLsb'_toNat, Nat.shiftRight_eq_div_pow]
  omega

/-! ## The command -/

theorem exec_nextBytes_of_seeded (n : Word32) {s : State} (hs : s.seeded = true) : exec (.nextBytes n) s =
    .next { s with
      gen := advanceBy (drawsForBytes n.toNat) s.gen
      output := s.output ++ BitVec.ofNat 64 (0x06 * 2 ^ 48 + n.toNat) ::
        (fillBytes (drawsForBytes n.toNat) n.toNat s.gen).1 } := by
  rw [exec, execNextBytes, needSeeded_of_seeded hs, drawBytes_eq]

theorem exec_nextBytes_of_unseeded (n : Word32) {s : State} (hs : s.seeded = false) :
    exec (.nextBytes n) s = .next { s with output := s.output ++ [0x0300000000000000] } :=
  (exec_of_unseeded rfl hs).trans (congrArg _ (raiseErr_errUnseeded s))

/-- A request of at least one and at most eight bytes is one cut draw. -/
theorem nextBytes_answersOneDraw {n : Word32} (h0 : 0 < n.toNat) (h8 : n.toNat ≤ 8) :
    AnswersOneDraw (.nextBytes n) fun r => [BitVec.ofNat 64 (0x06 * 2 ^ 48 + n.toNat), lowBytes n.toNat r] := by
  intro s hs
  have hone : drawsForBytes n.toNat = 1 := by unfold drawsForBytes; omega
  rw [exec_nextBytes_of_seeded n hs, hone, fillBytes, fillBytes, Nat.min_eq_right h8]
  rfl

theorem nextBytes_four_answersOneDraw :
    AnswersOneDraw (.nextBytes 4) fun r => [(0x0006000000000004 : Word), r &&& 0xFFFFFFFF] :=
  nextBytes_answersOneDraw (by decide) (by decide)

theorem nextBytes_eight_answersOneDraw : AnswersOneDraw (.nextBytes 8) fun r => [0x0006000000000008, r] := by
  intro s hs
  rw [← lowBytes_eight (advance s.gen).1]
  exact nextBytes_answersOneDraw (by decide) (by decide) s hs

/-- A request split after whole draws leaves the same state words and the data beats of its two parts (R77). -/
theorem exec_nextBytes_add {a b : Word32} {s : State} (hs : s.seeded = true) (ha : a.toNat % 8 = 0)
    (hab : a.toNat + b.toNat < 2 ^ 32) : exec (.nextBytes (a + b)) s =
      .next { s with
        gen := advanceBy (drawsForBytes b.toNat) (advanceBy (drawsForBytes a.toNat) s.gen)
        output := s.output ++ BitVec.ofNat 64 (0x06 * 2 ^ 48 + (a + b).toNat) ::
          ((fillBytes (drawsForBytes a.toNat) a.toNat s.gen).1 ++
            (fillBytes (drawsForBytes b.toNat) b.toNat (advanceBy (drawsForBytes a.toNat) s.gen)).1) } := by
  rw [exec_nextBytes_of_seeded _ hs, BitVec.toNat_add_of_lt hab, fillBytes_drawsForBytes_add ha, drawsForBytes_add ha,
    advanceBy_add]

theorem commandWord_eq_ofNat (op : Byte) (arg : Word32) :
    commandWord op arg = BitVec.ofNat 64 (op.toNat * 2 ^ 56 + arg.toNat) := by
  rw [← toNat_commandWord, BitVec.ofNat_toNat, BitVec.setWidth_eq]

/-! ## The statements -/

/-- Settles O36: the beats by `fillBytes_getElem?`, the bytes by `bufferOf_fillBytes_getElem?`. -/
theorem nextBytesReturnsLittleEndianDraws : Obligations.NextBytesReturnsLittleEndianDraws := by
  refine ⟨fun n s hs => ⟨_, exec_nextBytes_of_seeded n hs, fillBytes_length _ _ _,
      fun j hj => fillBytes_getElem? _ _ _ j hj, bufferOf_fillBytes_length _ _,
      fun m hm => bufferOf_fillBytes_getElem? hm _⟩,
    fun n => congrArg (fun w => [w]) (commandWord_eq_ofNat 0x15 n), fun n s => exec_nextBytes_of_unseeded n,
    fun s w rest hop hrsv hq => ?_⟩
  have hop' : opOf w = 0x15 := hop
  have hframe : IsFrame w [] := (payloadBeats_of_ne (by rw [hop']; decide) (by rw [hop']; decide)).symm
  exact step_of_illegalWord (illegalWord_of_rsvOf_ne hrsv) hframe hq

/-- Settles O37: both runs make the same draws, and `bufferOf_fillBytes` compares the bytes. -/
theorem nextBytesIsTruncatedRawDraws : Obligations.NextBytesIsTruncatedRawDraws :=
  fun n s hs => ⟨drawsFrom (drawsForBytes n.toNat) s.gen, _, _, drawsFrom_length _ _,
    runInstrs_replicate_of_answersOneDraw nextRaw_answersOneDraw _ hs, exec_nextBytes_of_seeded n hs,
    bufferOf_fillBytes _ _⟩

/-- Settles O38: the last draw of a request is cut and the next command takes another (R77); a split at a multiple of 8
is `exec_nextBytes_add`; four bytes are the low half of one draw, eight are all of it. -/
theorem splittingBytesKeepsDataAtMultiplesOfEight : Obligations.SplittingBytesKeepsDataAtMultiplesOfEight := by
  refine ⟨fun n s hs hn => ?_, fun a b s hs ha hab => ?_, fun s hs =>
    ⟨runInstrs_replicate_of_answersOneDraw nextBytes_four_answersOneDraw 2 hs, nextBytes_eight_answersOneDraw s hs⟩⟩
  · have hdraws := drawsForBytes_of_mod_ne_zero hn
    have hleft : min 8 (n.toNat - 8 * (n.toNat / 8)) = n.toNat % 8 := by omega
    have hlast := fillBytes_getElem? _ n.toNat s.gen _ (Nat.lt_succ_self (n.toNat / 8))
    rw [hleft] at hlast
    have hexec := exec_nextBytes_of_seeded n hs
    rw [hdraws] at hexec
    refine ⟨_, _, _, _, hexec, rfl, fillBytes_length _ _ _, hlast, nextRaw_answersOneDraw _ hs, ?_⟩
    rw [drawsFrom_getD (Nat.lt_succ_self _)]
  · exact ⟨_, _, _, _, _, _, _, exec_nextBytes_of_seeded a hs, rfl, exec_nextBytes_of_seeded b hs, rfl,
      exec_nextBytes_add hs ha hab⟩

/-- Settles O40: eight bytes are one whole draw, and its upper four are what NEXT_I32 answers. -/
theorem nextBytesAgreesWithOtherCommands : Obligations.NextBytesAgreesWithOtherCommands := by
  refine ⟨fun s hs => ?_, fun n s hs hn => ?_⟩
  · exact ⟨_, _, _, _, nextBytes_eight_answersOneDraw s hs, nextRaw_answersOneDraw s hs,
      nextI64_answersOneDraw s hs, rfl, rfl, rfl⟩
  · exact ⟨_, _, _, _, _, _, _, _, _, exec_nextBytes_of_seeded n hs, rfl, nextI32_answersOneDraw s hs, rfl,
      bufferOf_fillBytes_drop_take hn s.gen, toNat_ushiftRight_eq_bytes _⟩

/-- Settles O39: a request of no bytes makes no draw. -/
theorem nextBytesZeroDrawsNothing : Obligations.NextBytesZeroDrawsNothing :=
  ⟨fun _ hs => exec_nextBytes_of_seeded 0 hs, fun _ hs => exec_nextBytes_of_unseeded 0 hs⟩

end Sys2Proof.Machine

/-! The class of a legal frame's command, read off its command word (`30_encoding.md` R35, R36). -/
namespace Sys2Proof

/-- The opcode in the row of each command (R35). -/
def Command.opcode : Command → Byte
  | .seed => 0x01
  | .seedv => 0x02
  | .exportState => 0x03
  | .nextRaw => 0x10
  | .nextI32 => 0x11
  | .nextI64 => 0x12
  | .nextF32 => 0x13
  | .nextF64 => 0x14
  | .nextBytes => 0x15

theorem opcodeTable_pattern : ∀ r ∈ opcodeTable,
    r.pattern = commandWord r.command.opcode 0 ∧ (r.mask = maskArg ∨ r.mask = maskWhole) := by decide

theorem opOf_eq_opcode_of_matchesRow {w : Word} {r : Row} (hr : r ∈ opcodeTable) (h : matchesRow w r = true) :
    opOf w = r.command.opcode := by
  obtain ⟨hpattern, hmask⟩ := opcodeTable_pattern r hr
  have hand : w &&& r.mask = commandWord r.command.opcode 0 := (beq_iff_eq.mp h).trans hpattern
  obtain harg | hwhole := hmask
  · exact ((and_maskArg_eq w _).mp (harg ▸ hand)).1
  · exact ((and_maskWhole_eq w _).mp (hwhole ▸ hand)).1

theorem opOf_eq_opcode_of_commandOf {w : Word} {c : Command} (h : commandOf w = some c) : opOf w = c.opcode := by
  obtain ⟨r, hfind, rfl⟩ := Option.map_eq_some_iff.mp h
  exact opOf_eq_opcode_of_matchesRow (List.mem_of_find?_eq_some hfind) (List.find?_some hfind)

theorem withOperands_seed_constructs {w : Word} {payload : List Word} {i : Instr}
    (h : withOperands w payload .seed = .ok i) : i.constructs = true := by
  simp only [withOperands] at h
  split at h
  · cases h
    rfl
  · cases h

/-- A legal frame is a command of the class that its opcode says: SEED, SEEDV with the frame's payload, or one that
needs `SEEDED` (R36). -/
theorem decode_of_legalWord {w : Word} {payload : List Word} (hf : IsFrame w payload) (hw : IllegalWord w = false) :
    ∃ i, decode (w :: payload) = .ok i ∧
      (opOf w = 0x01 ∧ i.constructs = true ∨
        opOf w = 0x02 ∧ i = .seedv payload ∨
        opOf w ≠ 0x01 ∧ opOf w ≠ 0x02 ∧ i.needsSeeded = true) := by
  cases hc : commandOf w with
  | none => exact absurd (hw.symm.trans ((illegalWord_iff_commandOf w).mpr hc)) Bool.noConfusion
  | some c =>
    obtain ⟨i, hd⟩ := decode_ok_of_commandOf hf hc
    have hi : withOperands w payload c = .ok i := (decode_of_frame hf hc).symm.trans hd
    refine ⟨i, hd, ?_⟩
    rw [opOf_eq_opcode_of_commandOf hc]
    cases c with
    | seed => exact .inl ⟨rfl, withOperands_seed_constructs hi⟩
    | seedv =>
      cases hi
      exact .inr (.inl ⟨rfl, rfl⟩)
    | _ =>
      cases hi
      exact .inr (.inr ⟨by decide, by decide, rfl⟩)

end Sys2Proof

/-! The three errors: which of them answers a frame, and that it leaves the state as it was (`60_exceptions.md` R84 to
R86). -/
namespace Sys2Proof.Machine

/-! ## An answer of a given STATUS -/

/-- `t` is what `s` becomes when it answers with a STATUS. With `OK` there is one response frame more, and nothing is
said of the other fields; with an error code `s` has taken the exception (R86) and has done nothing else. -/
inductive Answers (s : State) : Status → State → Prop where
  | ok {t : State} (r : Response) (hr : r.status = .ok) (ho : t.output = s.output ++ r.beats) : Answers s .ok t
  | err {code : Status} (hc : code ≠ .ok) : Answers s code (s.raiseErr code)

theorem getElem?_append_beats (o : List Word) (r : Response) : (o ++ r.beats)[o.length]? = some r.header := by
  simp [Response.beats]

/-- The beat after those emitted before is the header, with the STATUS in its top field (R38). -/
theorem Answers.exists_header {s t : State} {code : Status} (ha : Answers s code t) :
    ∃ h, t.output[s.output.length]? = some h ∧ h.extractLsb' 56 8 = code.code := by
  cases ha with
  | ok r hr ho => exact ⟨r.header, ho ▸ getElem?_append_beats _ r, hr ▸ extractLsb'_header_status r⟩
  | err hc => exact ⟨_, getElem?_append_beats _ _, extractLsb'_header_status _⟩

/-- An answer with an error code is the exception alone (R86). -/
theorem Answers.eq_raiseErr {s t : State} {code : Status} (ha : Answers s code t) (hc : code ≠ .ok) :
    t = s.raiseErr code := by
  cases ha with
  | ok r hr ho => exact absurd rfl hc
  | err => rfl

theorem header_mem_of_error {code : Status} (hc : code ≠ .ok) : Response.header ⟨code, .noData, 0, []⟩ ∈
    [0x0100000000000000, 0x0200000000000000, (0x0300000000000000 : Word)] := by
  cases code with
  | ok => exact absurd rfl hc
  | errIllegal => decide
  | errSeedLen => decide
  | errUnseeded => decide

/-! ## The STATUS of a command, by its class -/

theorem exec_answers_of_constructs {i : Instr} (hc : i.constructs = true) (s : State) :
    ∃ t, exec i s = .next t ∧ Answers s .ok t := by
  obtain ⟨-, -, w0, w1, w2, w3, he⟩ | ⟨hc', -⟩ | ⟨hc', -⟩ := exec_cases i
  · exact ⟨_, he s, .ok ⟨.ok, .noData, 0, []⟩ rfl rfl⟩
  · exact absurd (hc.symm.trans hc') Bool.noConfusion
  · exact absurd (hc.symm.trans hc') Bool.noConfusion

theorem exec_seedv_answers (payload : List Word) (s : State) : ∃ t, exec (.seedv payload) s = .next t ∧
    Answers s (if payload.length ≠ 4 then .errSeedLen else .ok) t := by
  by_cases h : payload.length = 4
  · rw [if_neg (not_not_intro h)]
    exact exec_answers_of_constructs (i := .seedv payload) (beq_iff_eq.mpr h) s
  · rw [if_pos h]
    exact ⟨_, execSeedv_of_length_ne h s, .err Status.noConfusion⟩

/-- A command that needs `SEEDED` answers `OK` when it has it: this check is the only one it makes (R41). -/
theorem exec_eq_needSeeded {i : Instr} (hn : i.needsSeeded = true) :
    ∃ effect, (∀ s, exec i s = needSeeded effect s) ∧ ∀ s, Answers s .ok (effect s) := by
  cases i with
  | seed w0 w1 w2 w3 => cases hn
  | seedv payload => cases hn
  | _ => exact ⟨_, fun _ => rfl, fun _ => .ok ⟨.ok, _, _, _⟩ rfl rfl⟩

theorem exec_answers_of_needsSeeded {i : Instr} (hn : i.needsSeeded = true) (s : State) :
    ∃ t, exec i s = .next t ∧ Answers s (if s.seeded = false then .errUnseeded else .ok) t := by
  obtain ⟨effect, he, hok⟩ := exec_eq_needSeeded hn
  rw [he]
  cases hs : s.seeded with
  | false => exact ⟨_, needSeeded_of_unseeded hs effect, .err Status.noConfusion⟩
  | true => exact ⟨_, needSeeded_of_seeded hs effect, hok s⟩

/-! ## The STATUS of a frame -/

/-- R84's order of the three causes, read off the command word and the flag. -/
def frameStatus (w : Word) (seeded : Bool) : Status :=
  if IllegalWord w = true then .errIllegal
  else if opOf w = 0x02 ∧ argOf w ≠ 4 then .errSeedLen
  else if opOf w ≠ 0x01 ∧ opOf w ≠ 0x02 ∧ seeded = false then .errUnseeded
  else .ok

section
variable {w : Word} (hw : IllegalWord w = false) (seeded : Bool)
include hw

theorem frameStatus_of_seed (hop : opOf w = 0x01) : frameStatus w seeded = .ok := by
  simp [frameStatus, hw, hop]

theorem frameStatus_of_seedv (hop : opOf w = 0x02) :
    frameStatus w seeded = if argOf w ≠ 4 then .errSeedLen else .ok := by
  simp [frameStatus, hw, hop]

theorem frameStatus_of_needsSeeded (h1 : opOf w ≠ 0x01) (h2 : opOf w ≠ 0x02) :
    frameStatus w seeded = if seeded = false then .errUnseeded else .ok := by
  simp only [frameStatus, hw, h1, h2, Bool.false_eq_true, false_and, if_false, ne_eq, not_false_eq_true, true_and]

end

theorem code_frameStatus (w : Word) (seeded : Bool) : (frameStatus w seeded).code =
    if IllegalWord w = true then 0x01
    else if opOf w = 0x02 ∧ argOf w ≠ 4 then 0x02
    else if opOf w ≠ 0x01 ∧ opOf w ≠ 0x02 ∧ seeded = false then 0x03
    else 0x00 := by
  simp only [frameStatus, apply_ite Status.code]
  rfl

/-- A SEEDV frame has as many payload beats as its `ARG` says (R34). -/
theorem length_ne_four_iff_argOf_ne {w : Word} {payload : List Word} (hf : IsFrame w payload)
    (hop : opOf w = 0x02) : payload.length ≠ 4 ↔ argOf w ≠ 4 := by
  rw [hf, payloadBeats_seedv hop]
  exact not_congr (BitVec.toNat_inj (y := (4 : Word32)))

/-- A whole frame, legal or not, is answered with the STATUS that R84 gives it. -/
theorem step_of_frame_answers {s : State} {w : Word} {payload : List Word} {rest : List Input}
    (hf : IsFrame w payload) (hq : s.input = (w :: payload).map Input.beat ++ rest) :
    ∃ t, step s = .next t ∧ Answers (s.withInput rest) (frameStatus w s.seeded) t := by
  cases hw : IllegalWord w with
  | true =>
    have hd := decode_error_of_commandOf hf ((illegalWord_iff_commandOf w).mp hw)
    rw [frameStatus, if_pos hw]
    exact ⟨_, step_of_decode_error hf hq hd, .err Status.noConfusion⟩
  | false =>
    obtain ⟨i, hd, hclass⟩ := decode_of_legalWord hf hw
    rw [step_of_decode hf hq hd]
    obtain ⟨hop, hc⟩ | ⟨hop, rfl⟩ | ⟨h1, h2, hn⟩ := hclass
    · rw [frameStatus_of_seed hw _ hop]
      exact exec_answers_of_constructs hc _
    · simp only [frameStatus_of_seedv hw _ hop, ← length_ne_four_iff_argOf_ne hf hop]
      exact exec_seedv_answers payload _
    · rw [frameStatus_of_needsSeeded hw _ h1 h2]
      exact exec_answers_of_needsSeeded hn (s.withInput rest)

/-! ## The statements -/

/-- Settles O17: with a nonzero STATUS the next state is the one of `raiseErr`, and its one beat is an error header. -/
theorem errorChangesNothing : Obligations.ErrorChangesNothing := by
  intro s t w p rest h hf hq hstep hbeat hstatus
  obtain ⟨t', hstep', ha⟩ := step_of_frame_answers hf hq
  cases hstep.symm.trans hstep'
  obtain ⟨h', hbeat', hcode⟩ := ha.exists_header
  obtain rfl : h' = h := Option.some.inj (hbeat'.symm.trans hbeat)
  have herror : frameStatus w s.seeded ≠ .ok := fun hok => hstatus (hcode.trans (congrArg Status.code hok))
  obtain rfl := ha.eq_raiseErr herror
  obtain rfl : Response.header ⟨_, .noData, 0, []⟩ = h' :=
    Option.some.inj ((getElem?_append_beats s.output _).symm.trans hbeat)
  exact ⟨rfl, header_mem_of_error herror⟩

/-- Settles O18: the header that answers a frame carries the code of `frameStatus`. -/
theorem errorPriority : Obligations.ErrorPriority := by
  intro s w p rest hf hq
  obtain ⟨t, hstep, ha⟩ := step_of_frame_answers hf hq
  obtain ⟨h, hbeat, hstatus⟩ := ha.exists_header
  exact ⟨t, h, hstep, hbeat, hstatus.trans (code_frameStatus w s.seeded)⟩

end Sys2Proof.Machine

/-! Decoding and encoding are inverse to each other (`30_encoding.md` sections 1 to 3). -/
namespace Sys2Proof

/-- Settles O8: each frame is whole, and its command word selects the row of its command (`decode_encode`). -/
theorem decodeInvertsEncode : Obligations.DecodeInvertsEncode := decode_encode

/-- A list of beats that decodes is one whole frame whose command word selects a row of the table. -/
theorem decode_eq_ok_iff {beats : List Word} {i : Instr} : decode beats = .ok i ↔
    ∃ w payload c, beats = w :: payload ∧ IsFrame w payload ∧ commandOf w = some c ∧
      withOperands w payload c = .ok i := by
  constructor
  · intro h
    cases beats with
    | nil => cases h
    | cons w payload =>
      by_cases hf : IsFrame w payload
      · cases hc : commandOf w with
        | none => cases (decode_error_of_commandOf hf hc).symm.trans h
        | some c => exact ⟨w, payload, c, rfl, hf, hc, (decode_of_frame hf hc).symm.trans h⟩
      · rw [decode, if_neg hf] at h
        cases h
  · rintro ⟨w, payload, c, rfl, hf, hc, hi⟩
    exact (decode_of_frame hf hc).trans hi

/-- Only the rows of SEEDV and NEXT_BYTES leave `ARG` free (R35). -/
theorem opcodeTable_mask : ∀ r ∈ opcodeTable,
    r.mask = if r.command = .seedv ∨ r.command = .nextBytes then maskArg else maskWhole := by decide

/-- The word that selects a row is the row's opcode with an argument, which is zero where the row fixes it. -/
theorem eq_commandWord_of_commandOf {w : Word} {c : Command} (h : commandOf w = some c) :
    w = commandWord c.opcode (if c = .seedv ∨ c = .nextBytes then argOf w else 0) := by
  obtain ⟨r, hfind, rfl⟩ := Option.map_eq_some_iff.mp h
  have hr : r ∈ opcodeTable := List.mem_of_find?_eq_some hfind
  have hmask := opcodeTable_mask r hr
  obtain ⟨hpattern, -⟩ := opcodeTable_pattern r hr
  have hmatch : matchesRow w r = true := List.find?_some hfind
  have hand : w &&& r.mask = commandWord r.command.opcode 0 := (beq_iff_eq.mp hmatch).trans hpattern
  split at hmask
  case isTrue harg =>
    obtain ⟨hop, hrsv⟩ := (and_maskArg_eq w _).mp (hmask ▸ hand)
    rw [if_pos harg, ← hop]
    exact eq_commandWord hrsv
  case isFalse hplain =>
    obtain ⟨hop, hrsv, harg⟩ := (and_maskWhole_eq w _).mp (hmask ▸ hand)
    rw [if_neg hplain, ← hop, ← harg]
    exact eq_commandWord hrsv

/-- The operands that the decoder reads from a whole frame are those that the encoder writes. -/
theorem encode_of_withOperands {w : Word} {payload : List Word} {c : Command} {i : Instr} (hf : IsFrame w payload)
    (hc : commandOf w = some c) (hi : withOperands w payload c = .ok i) :
    encode i = w :: payload ∧ i.wellFormed = true := by
  have hw := eq_commandWord_of_commandOf hc
  have hop := opOf_eq_opcode_of_commandOf hc
  cases c with
  | seed =>
    have hlen : payload.length = 4 := hf.trans (payloadBeats_seed hop)
    match payload, hlen with
    | [w0, w1, w2, w3], _ =>
      cases hi
      exact ⟨congrArg (· :: [w0, w1, w2, w3]) hw.symm, rfl⟩
  | seedv =>
    have hlen : payload.length = (argOf w).toNat := hf.trans (payloadBeats_seedv hop)
    have harg : BitVec.ofNat 32 payload.length = argOf w := by rw [hlen, BitVec.ofNat_toNat, BitVec.setWidth_eq]
    cases hi
    refine ⟨?_, decide_eq_true (hlen ▸ (argOf w).isLt)⟩
    rw [encode, harg]
    exact congrArg (· :: payload) hw.symm
  | _ =>
    have hnil : payload = [] := List.eq_nil_of_length_eq_zero
      (hf.trans (payloadBeats_of_ne (by rw [hop]; decide) (by rw [hop]; decide)))
    cases hi
    exact ⟨by rw [hnil]; exact congrArg (· :: []) hw.symm, rfl⟩

/-- Settles O9: the command word by the row it selects, the payload by the frame's length. -/
theorem encodeInvertsDecode : Obligations.EncodeInvertsDecode := by
  intro beats i h
  obtain ⟨w, payload, c, rfl, hf, hc, hi⟩ := decode_eq_ok_iff.mp h
  exact encode_of_withOperands hf hc hi

/-- Settles O11: the model's decoder on the six frames. -/
theorem tableWordsDecode : Obligations.TableWordsDecode := by
  refine ⟨?_, ?_, ?_, ?_, ?_, ?_⟩ <;> decide

end Sys2Proof

/-! What the step does with the front of the command channel (`30_encoding.md` section 1, `70_reset_and_hazards.md`
section 1). -/
namespace Sys2Proof.Machine

theorem fetch_of_short {w : Word} {payload : List Word} (h : payload.length < payloadBeats w) :
    fetch ((w :: payload).map Input.beat) = .wait := by
  rw [List.map_cons, fetch, takeBeats_short payload _ h]

theorem fetch_of_resetInsideFrame {q : List Input} (h : ResetInsideFrame q) : fetch q = .brokenByReset := by
  obtain ⟨w, payload, rest, rfl, hlen⟩ := h
  rw [List.map_cons, List.cons_append, fetch, takeBeats_broken payload _ rest hlen]

theorem step_of_wait {s : State} (h : fetch s.input = .wait) : step s = .next s := by
  rw [step, h]

theorem step_of_brokenByReset {s : State} (h : fetch s.input = .brokenByReset) :
    step s = .refused .resetInsideFrame := by
  rw [step, h]

/-- Whatever else stands in the command channel, the block waits, takes the reset event, or answers a whole frame. -/
theorem step_next_of_not_resetInsideFrame {s : State} (h : ¬ ResetInsideFrame s.input) : ∃ t, step s = .next t := by
  have hspec := fetch_spec s.input
  cases hf : fetch s.input with
  | wait => exact ⟨s, step_of_wait hf⟩
  | reset rest =>
    rw [hf] at hspec
    exact ⟨_, step_of_reset hspec⟩
  | brokenByReset =>
    rw [hf] at hspec
    exact absurd hspec h
  | frame beats rest =>
    rw [hf] at hspec
    obtain ⟨w, payload, -, hframe, hq⟩ := hspec
    obtain ⟨t, ht, -⟩ := step_of_frame_answersLegally hframe hq
    exact ⟨t, ht⟩

/-- Settles O12: beats that decode are a whole frame, and so is what `encode` writes. -/
theorem stepRunsDecodedInstruction : Obligations.StepRunsDecodedInstruction := by
  refine ⟨fun s beats rest i hd hq => ?_, fun s i rest hi hq => step_of_encode hi hq⟩
  obtain ⟨w, payload, c, rfl, hf, -⟩ := decode_eq_ok_iff.mp hd
  exact step_of_decode hf hq hd

/-- Settles O13: `fetch` finds no whole frame in either channel. -/
theorem incompleteFrameWaits : Obligations.IncompleteFrameWaits :=
  ⟨fun _ hq => step_of_wait (congrArg fetch hq), fun _ _ _ hlen hq =>
    step_of_wait ((congrArg fetch hq).trans (fetch_of_short hlen))⟩

/-- Settles O14: the refusal by `fetch_of_resetInsideFrame`, the rest by what `fetch` can find. -/
theorem stepStopsOnlyAtResetInsideFrame : Obligations.StepStopsOnlyAtResetInsideFrame :=
  ⟨fun _ h => step_of_brokenByReset (fetch_of_resetInsideFrame h), fun _ => step_next_of_not_resetInsideFrame⟩

/-- Settles O45: the reset state by its fields, the reset event by `step_of_reset`. -/
theorem resetLeavesUnseededAndEmpty : Obligations.ResetLeavesUnseededAndEmpty :=
  ⟨rfl, rfl, rfl, fun _ _ hq => ⟨_, step_of_reset hq, rfl, rfl, rfl⟩⟩

end Sys2Proof.Machine

/-! The response channel as a stream of whole legal responses (`30_encoding.md` section 4, `20_memory.md` R27). -/
namespace Sys2Proof.Machine

theorem legalStream_nil : LegalStream [] := ⟨[], by simp, rfl⟩

theorem LegalStream.append_beats {beats : List Word} (h : LegalStream beats) {r : Response} (hr : r.legal = true) :
    LegalStream (beats ++ r.beats) := by
  obtain ⟨rs, hrs, rfl⟩ := h
  exact ⟨rs ++ [r], List.forall_mem_append.mpr ⟨hrs, List.forall_mem_singleton.mpr hr⟩, by simp⟩

/-- One legal response more keeps the stream legal. -/
theorem AnswersLegally.inv {s t : State} (h : AnswersLegally s t) (hs : s.Inv) : t.Inv := by
  obtain ⟨-, r, hr, ho⟩ := h
  rw [State.Inv, ho]
  exact hs.append_beats hr

/-- Settles O46: waiting and the reset event emit nothing, and the answer to a whole frame is one legal response. -/
theorem responseStreamStaysLegal : Obligations.ResponseStreamStaysLegal := by
  intro s t hs h
  obtain rfl | ⟨rest, -, rfl⟩ | ⟨w, payload, rest, i, -, -, -, he⟩ | ⟨w, payload, rest, e, -, -, -, rfl⟩ :=
    step_cases h
  · exact hs
  · exact hs
  · obtain ⟨t', he', hlegal⟩ := exec_answersLegally i (s.withInput rest)
    cases he'.symm.trans he
    exact hlegal.inv hs
  · exact (raiseErr_answersLegally (s.withInput rest) Status.noConfusion).inv hs

/-- Settles O47: nothing has been emitted at reset. -/
theorem responseStreamLegalAtReset : Obligations.ResponseStreamLegalAtReset := legalStream_nil

end Sys2Proof.Machine

/-! The state map of `Advance()` is linear over GF(2) and injective, and the scrambler is a bijection
(`40_core_generator.md` R50, `95_test_vectors.md` V2.6 and section 9). -/
namespace Sys2Proof.Machine

/-! ## Rotations -/

theorem rotateLeft_xor {w : Nat} (x y : BitVec w) (n : Nat) :
    (x ^^^ y).rotateLeft n = x.rotateLeft n ^^^ y.rotateLeft n := by
  ext i hi
  simp only [BitVec.getElem_rotateLeft, BitVec.getElem_xor]
  split <;> rfl

/-- Rotating left by `n` brings every bit that a right rotation by `n` has moved back to its place. -/
theorem rotateLeft_rotateRight {w : Nat} (x : BitVec w) (n : Nat) : (x.rotateRight n).rotateLeft n = x := by
  ext i hi
  have hn : n % w < w := Nat.mod_lt n (by omega)
  rw [BitVec.getElem_rotateLeft]
  split
  case isTrue hlow =>
    rw [BitVec.getElem_rotateRight, dif_neg (by omega)]
    congr 1
    omega
  case isFalse hhigh =>
    rw [BitVec.getElem_rotateRight, dif_pos (by omega)]
    congr 1
    omega

/-- A map of words that reaches every word is injective, because there are finitely many. -/
theorem rotateLeft_injective {w : Nat} (n : Nat) : Function.Injective fun x : BitVec w => x.rotateLeft n :=
  Finite.injective_iff_surjective.mpr fun x => ⟨x.rotateRight n, rotateLeft_rotateRight x n⟩

/-! ## The scrambler -/

/-- The seed word that V2.6 computes for a draw `d`: the multiplications are undone by the inverses of 9 and 5 modulo
`2 ^ 64`. -/
def unscramble (d : Word) : Word := 0xcccccccccccccccd * (0x8e38e38e38e38e39 * d).rotateRight 7

theorem scramble_unscramble (d : Word) : scramble (unscramble d) = d := by
  have hfive : (0xcccccccccccccccd : Word) * 5 = 1 := by decide
  have hnine : (0x8e38e38e38e38e39 : Word) * 9 = 1 := by decide
  rw [scramble_eq_rotateLeft, unscramble, mul_right_comm, hfive, one_mul, rotateLeft_rotateRight, mul_right_comm, hnine,
    one_mul]

/-- As for rotations: the scrambler reaches every word. -/
theorem scramble_injective : Function.Injective scramble :=
  Finite.injective_iff_surjective.mpr fun d => ⟨unscramble d, scramble_unscramble d⟩

/-- Settles O5: `unscramble` gives a seed word for every draw, so the scrambler is onto and hence one to one. -/
theorem drawIsBijectionOfSecondWord : Obligations.DrawIsBijectionOfSecondWord :=
  ⟨fun _ _ h => scramble_injective h, scramble_unscramble⟩

/-! ## The state map -/

/-- The wordwise xor of two register files. -/
def GenState.xor (a b : GenState) : GenState := ⟨a.s0 ^^^ b.s0, a.s1 ^^^ b.s1, a.s2 ^^^ b.s2, a.s3 ^^^ b.s3⟩

theorem GenState.xor_eq_zero_iff {a b : GenState} : a.xor b = ⟨0, 0, 0, 0⟩ ↔ a = b := by
  have hword (x y : Word) : x ^^^ y = 0 ↔ x = y := BitVec.xor_eq_zero_iff
  simp only [GenState.xor, hword, GenState.ext_iff]

theorem xor_of_two_xors (a b c d : Word) : a ^^^ b ^^^ (c ^^^ d) = a ^^^ c ^^^ (b ^^^ d) := by ac_rfl

theorem xor_of_three_xors (a b c d e f : Word) :
    a ^^^ b ^^^ (c ^^^ d) ^^^ (e ^^^ f) = a ^^^ c ^^^ e ^^^ (b ^^^ d ^^^ f) := by ac_rfl

/-- Each new word is made of the old ones by xor, shift and rotation, which all commute with xor. -/
theorem nextGen_xor (a b : GenState) : nextGen (a.xor b) = (nextGen a).xor (nextGen b) := by
  obtain ⟨a0, a1, a2, a3⟩ := a
  obtain ⟨b0, b1, b2, b3⟩ := b
  simp only [GenState.xor, nextGen_eq_closedForm, BitVec.shiftLeft_xor_distrib, GenState.mk.injEq]
  exact ⟨xor_of_three_xors .., xor_of_three_xors .., xor_of_three_xors .., by rw [xor_of_two_xors, rotateLeft_xor]⟩

/-- `x * (2 ^ 17 - 1)` is zero modulo `2 ^ 64` for `x = 0` alone, because the factor is odd. -/
theorem eq_zero_of_eq_shiftLeft {x : Word} (h : x = x <<< 17) : x = 0 := by
  bv_omega

/-- Only the all-zero state is mapped to it: the last word gives `a3 = a1`, the first `a0 = 0`, the second `a2 = a1`, and
the third is then `a1` xor its own shift. -/
theorem eq_zero_of_nextGen_eq_zero {g : GenState} (h : nextGen g = ⟨0, 0, 0, 0⟩) : g = ⟨0, 0, 0, 0⟩ := by
  obtain ⟨a0, a1, a2, a3⟩ := g
  rw [nextGen_eq_closedForm, GenState.mk.injEq] at h
  obtain ⟨h0, h1, h2, h3⟩ := h
  obtain rfl : a1 = a3 := by
    have hzero : (0 : Word).rotateLeft 45 = 0 := by decide
    exact BitVec.xor_eq_zero_iff.mp (rotateLeft_injective 45 (h3.trans hzero.symm))
  obtain rfl : a0 = 0 := by rwa [BitVec.xor_assoc, BitVec.xor_self, BitVec.xor_zero] at h0
  obtain rfl : a1 = a2 := by
    rw [BitVec.xor_assoc] at h1
    exact BitVec.xor_eq_zero_iff.mp (BitVec.zero_xor.symm.trans h1)
  obtain rfl : a1 = 0 := by
    rw [BitVec.xor_assoc] at h2
    exact eq_zero_of_eq_shiftLeft (BitVec.xor_eq_zero_iff.mp (BitVec.zero_xor.symm.trans h2))
  rfl

/-- A linear map with a trivial kernel is injective. -/
theorem nextGen_injective : Function.Injective nextGen := by
  intro g g' h
  apply GenState.xor_eq_zero_iff.mp
  apply eq_zero_of_nextGen_eq_zero
  rw [nextGen_xor, h]
  exact GenState.xor_eq_zero_iff.mpr rfl

theorem advanceBy_ne_zero (n : Nat) {g : GenState} (hg : g ≠ ⟨0, 0, 0, 0⟩) : advanceBy n g ≠ ⟨0, 0, 0, 0⟩ := by
  induction n generalizing g with
  | zero => exact hg
  | succ n ih => exact ih fun h => hg (eq_zero_of_nextGen_eq_zero h)

/-- Settles O6: `nextGen_xor` on the two states. -/
theorem stateMapIsLinear : Obligations.StateMapIsLinear :=
  fun a0 a1 a2 a3 b0 b1 b2 b3 => nextGen_xor ⟨a0, a1, a2, a3⟩ ⟨b0, b1, b2, b3⟩

/-- Settles O4: injective by linearity, and so no draw takes a nonzero state to zero. -/
theorem nonzeroStateNeverReachesZero : Obligations.NonzeroStateNeverReachesZero :=
  ⟨fun _ _ h => nextGen_injective h, fun n _ hg => advanceBy_ne_zero n hg⟩

end Sys2Proof.Machine

/-! What a command leaves unchanged, and what its answer depends on (`10_state.md` section 2, `40_core_generator.md` R54,
R55, R58). -/
namespace Sys2Proof.Machine

/-! ## The frame of a command -/

/-- Without a construction and without a draw no state word changes. -/
theorem exec_next_gen {i : Instr} {s t : State} (h : exec i s = .next t) (hc : i.constructs = false)
    (hd : s.seeded = false ∨ i.drawCount = 0) : t.gen = s.gen := by
  obtain ⟨hc', -⟩ | ⟨-, -, -, he⟩ | ⟨-, hn, -⟩ := exec_cases i
  · exact absurd (hc.symm.trans hc') Bool.noConfusion
  · cases (he s).symm.trans h
    rfl
  · cases hs : s.seeded with
    | false =>
      cases (exec_of_unseeded hn hs).symm.trans h
      rfl
    | true =>
      obtain ⟨t', he, -, hg⟩ := exec_advances_of_seeded hs hc
      cases he.symm.trans h
      have hzero : i.drawCount = 0 := hd.resolve_left (by simp [hs])
      rw [hg, hzero, advanceBy]

/-- Settles O43: the channels and the counter by `exec_shape`, the flag and the words by the command's class. -/
theorem commandFrame : Obligations.CommandFrame := by
  intro i s t h
  have hseeded : i.constructs = false → t.seeded = s.seeded := fun hc => by
    rw [exec_next_seeded h, hc, Bool.or_false]
  have hgen := exec_next_gen h
  obtain ⟨g, b, r, he⟩ := exec_shape i s
  cases he.symm.trans h
  exact ⟨rfl, rfl, ⟨r.beats, rfl⟩, hseeded, hgen⟩

/-! ## Two blocks with the same words and flag -/

/-- From `s` and `s'` two blocks have come to `t` and `t'` with the same beats emitted, the same words and flag. -/
def AnswersAlike (s s' t t' : State) : Prop :=
  ∃ out, t.output = s.output ++ out ∧ t'.output = s'.output ++ out ∧ t.gen = t'.gen ∧ t.seeded = t'.seeded

theorem AnswersAlike.trans {s s' t t' u u' : State} (h : AnswersAlike s s' t t') (h' : AnswersAlike t t' u u') :
    AnswersAlike s s' u u' := by
  obtain ⟨out, ho, ho', -, -⟩ := h
  obtain ⟨out', hu, hu', hg, hb⟩ := h'
  exact ⟨out ++ out', by rw [hu, ho, List.append_assoc], by rw [hu', ho', List.append_assoc], hg, hb⟩

/-- Construction reads nothing of the state, so it makes any two blocks alike (R54). -/
theorem construct_answersAlike (w0 w1 w2 w3 : Word) (s s' : State) :
    AnswersAlike s s' (construct w0 w1 w2 w3 s) (construct w0 w1 w2 w3 s') :=
  ⟨_, construct_output s w0 w1 w2 w3, construct_output s' w0 w1 w2 w3, rfl, rfl⟩

section
variable {s s' : State} (hg : s.gen = s'.gen) (hb : s.seeded = s'.seeded)
include hg hb

theorem raiseErr_answersAlike (code : Status) : AnswersAlike s s' (s.raiseErr code) (s'.raiseErr code) :=
  ⟨_, State.raiseErr_output s code, State.raiseErr_output s' code, hg, hb⟩

theorem drawAndAnswer_answersAlike (n : Nat) (answer : GenState → Response) :
    AnswersAlike s s' (drawAndAnswer n answer s) (drawAndAnswer n answer s') :=
  ⟨(answer s.gen).beats, rfl, by rw [drawAndAnswer_output, hg], congrArg (advanceBy n) hg, hb⟩

/-- A command reads the words and the flag alone. -/
theorem exec_answersAlike (i : Instr) :
    ∃ t t', exec i s = .next t ∧ exec i s' = .next t' ∧ AnswersAlike s s' t t' := by
  obtain ⟨-, -, w0, w1, w2, w3, he⟩ | ⟨-, -, -, he⟩ | ⟨-, hn, answer, he⟩ := exec_cases i
  · exact ⟨_, _, he s, he s', construct_answersAlike w0 w1 w2 w3 s s'⟩
  · exact ⟨_, _, he s, he s', raiseErr_answersAlike hg hb _⟩
  · cases hs : s.seeded with
    | false =>
      exact ⟨_, _, exec_of_unseeded hn hs, exec_of_unseeded hn (hb.symm.trans hs), raiseErr_answersAlike hg hb _⟩
    | true =>
      exact ⟨_, _, (he s).trans (needSeeded_of_seeded hs _),
        (he s').trans (needSeeded_of_seeded (hb.symm.trans hs) _), drawAndAnswer_answersAlike hg hb _ answer⟩

theorem runInstrs_answersAlike (is : List Instr) :
    ∃ t t', runInstrs is s = .next t ∧ runInstrs is s' = .next t' ∧ AnswersAlike s s' t t' := by
  induction is generalizing s s' with
  | nil => exact ⟨s, s', rfl, rfl, [], (List.append_nil _).symm, (List.append_nil _).symm, hg, hb⟩
  | cons i is ih =>
    obtain ⟨u, u', hu, hu', halike⟩ := exec_answersAlike hg hb i
    have ⟨_, _, _, hgu, hbu⟩ := halike
    obtain ⟨t, t', ht, ht', htail⟩ := ih hgu hbu
    exact ⟨t, t', (runInstrs_cons hu is).trans ht, (runInstrs_cons hu' is).trans ht', halike.trans htail⟩

end

/-- Settles O24: SEED makes the two blocks alike, and alike blocks answer the same. -/
theorem seedForgetsEarlierStream : Obligations.SeedForgetsEarlierStream := by
  intro w0 w1 w2 w3 is s s'
  have hseed := construct_answersAlike w0 w1 w2 w3 s s'
  obtain ⟨t, t', ht, ht', htail⟩ := runInstrs_answersAlike
    (s := construct w0 w1 w2 w3 s) (s' := construct w0 w1 w2 w3 s') rfl rfl is
  obtain ⟨out, halike⟩ := hseed.trans htail
  exact ⟨t, t', out, ht, ht', halike⟩

/-- Settles O22: EXPORT answers the four words, and SEED writes them. -/
theorem seedOfExportRestoresState : Obligations.SeedOfExportRestoresState :=
  fun s u hs => ⟨_, s.gen.s0, s.gen.s1, s.gen.s2, s.gen.s3, exec_exportState_of_seeded hs, rfl,
    congrArg Host.Outcome.next (construct_eq s.gen.s0 s.gen.s1 s.gen.s2 s.gen.s3 u)⟩

end Sys2Proof.Machine
